-- ==== Sys2Proof/Word.lean ====
section
/-! DEFINITION. The word and bit types of the frame codec (spec/00_scope.md R8, R10). -/

namespace Sys2Proof

/-- A word of the frame buffer: `WORD_WIDTH` = 16 bits (R8, R30). -/
abbrev Word := BitVec 16

/-- A 1-bit value: `seg`, `chk`, `haschk`, `recognized`, `valid` (R33, R34). -/
abbrev Bit := BitVec 1

/-- A byte of the transport's wire (R56); the block itself has no bytes (R50). -/
abbrev Byte := BitVec 8

end Sys2Proof
end

