-- ==== Sys2Proof/Config.lean ====
section
/-! DEFINITION. The implementation parameters of spec/00_scope.md R8. `CYCLIC_MAX_NOCHK` and
`CYCLIC_MAX_CHK` are not switches: they follow from the capacity rule (R9, R103). The checksum
function `Config.checkFn` stands in Machine/Checksum.lean, after CHK16. -/

namespace Sys2Proof.Config

/-- `CAPACITY`: the number of words of FB (R8, R30). -/
@[simp] abbrev capacity : Nat := 128

/-- `HEADER_WORDS` (R8). -/
@[simp] abbrev headerWords : Nat := 1

/-- `CONFIG_WORDS` (R8, R53). -/
@[simp] abbrev configWords : Nat := 4

/-- `CONFIG_BASE`: the index of the first config word (R8, R51). -/
@[simp] abbrev configBase : Nat := 1

/-- `CYCLIC_BASE`: the index of the first cyclic word (R8, R51). -/
@[simp] abbrev cyclicBase : Nat := 5

/-- `CYCLIC_MAX_NOCHK` (R8, R9): also the length of the request's `cyc` array (R33). -/
@[simp] abbrev cyclicMaxNoChk : Nat := 123

/-- `CYCLIC_MAX_CHK` (R8, R9, C1). -/
@[simp] abbrev cyclicMaxChk : Nat := 122

/-- `ADDR_WIDTH`: header bits 15:4 (R8, R70, D3, I9). -/
abbrev addrWidth : Nat := 12

/-- `SEG_WIDTH` (R8). -/
abbrev segWidth : Nat := 1

/-- `CMD_WIDTH` (R8). -/
abbrev cmdWidth : Nat := 3

/-- `CMD_OPERAND_WIDTH` (R8, D4). -/
abbrev cmdOperandWidth : Nat := 8

/-- `N_OPERAND_WIDTH` (R8, D5). -/
abbrev nOperandWidth : Nat := 8

/-- `LEN_OPERAND_WIDTH` (R8, D7, D14). -/
abbrev lenOperandWidth : Nat := 8

/-- `INDEX_WIDTH` (R8, D15). -/
abbrev indexWidth : Nat := 7

/-- The two orders in which a transport can put the bytes of a word on the wire (R56). -/
inductive ByteOrder where
  /-- bits 15:8 first -/
  | highFirst
  /-- bits 7:0 first -/
  | lowFirst
deriving DecidableEq, Repr, Inhabited

/-- `WIRE_BYTE_ORDER` (R8, R56, D16, I10): OPEN. A free constant, so nothing proved of the model depends
on its value; only Machine/Transport.lean names it (log 12). -/
opaque wireByteOrder : ByteOrder

end Sys2Proof.Config
end

