-- ==== Sys2Proof/Machine/Interface.lean ====
section
/-! DEFINITION. The records the host and the block exchange (spec/10_state.md R33, R34), the outcome names
they carry (spec/60_exceptions.md R180, spec/30_encoding.md R74), the textual requests of R85 and R86, and
what a host can present to the block. -/

namespace Sys2Proof

/-- The request record (R33), with the widths of its table. Fields an operation's format does not list are
ignored (R82). -/
structure Request where
  /-- operation select code (R80) -/
  op : BitVec 4
  /-- destination address -/
  addr : BitVec 12
  /-- command code, 0..255 -/
  cmd : BitVec 8
  /-- segmentation flag -/
  seg : Bit
  /-- config payload `cfg[0..3]` -/
  cfg : Vector Word 4
  /-- cyclic word count -/
  n : BitVec 8
  /-- cyclic payload `cyc[0..122]` -/
  cyc : Vector Word 123
  /-- compute and append a checksum -/
  chk : Bit
  /-- occupied size of the frame in FB -/
  len : BitVec 8
  /-- the frame in FB carries a trailing checksum word -/
  haschk : Bit
  /-- word index into FB -/
  idx : BitVec 7
  /-- word to write -/
  data : Word
deriving DecidableEq, Repr

/-- The record with every field 0. A format's other fields are don't-care; R85 sets the `cyc` words a line
does not give to 0. -/
def Request.zero : Request where
  op := 0
  addr := 0
  cmd := 0
  seg := 0
  cfg := Vector.replicate 4 0
  n := 0
  cyc := Vector.replicate 123 0
  chk := 0
  len := 0
  haschk := 0
  idx := 0
  data := 0

/-- The status of a response (R180). The codes 5, 6 and 7 are never produced (I7), so no name stands for
them. -/
inductive Status where
  /-- 0: the operation completed -/
  | ok
  /-- 1: `cmd` outside the recognized set at construction time -/
  | invalidCommand
  /-- 2: 1+4+n+chk > 128 -/
  | oversizedPayload
  /-- 3: `len` outside the range a frame can have -/
  | badLength
  /-- 4: `op` is a reserved select code -/
  | illegalOp
deriving DecidableEq, Repr

/-- The kind of a command code (R74). -/
inductive Kind where
  | read
  | write
  | idle
  | ack
  | readError
  | writeError
  | unrecognized
deriving DecidableEq, Repr

/-- The class of a command code (R74, R16). -/
inductive CmdClass where
  | request
  | reply
  | reserved
deriving DecidableEq, Repr

/-- The response record (R34). A field an operation's rule does not name is absent from that response
(D28). -/
structure Response where
  status : Status
  size : Option (BitVec 8) := none
  addr : Option (BitVec 12) := none
  cmd : Option (BitVec 3) := none
  recognized : Option Bit := none
  kind : Option Kind := none
  seg : Option Bit := none
  words : Option (List Word) := none
  valid : Option Bit := none
  data : Option Word := none
deriving DecidableEq, Repr

/-- A textual request (R85) or pseudo-form (R86), its operands still numbers of any size. -/
inductive Line where
  /-- `CONSTRUCT <addr>, <cmd>, <seg>, {cfg}, <n>, {cyc}, <chk>`; without `n` the pseudo-form (R86) -/
  | construct (addr cmd seg : Nat) (cfg : List Nat) (n : Option Nat) (cyc : List Nat) (chk : Nat)
  /-- `IDLE <addr>, <chk>` (R86) -/
  | idle (addr chk : Nat)
  | getaddr
  | getcmd
  | getseg
  | getcfg
  | getcyc (len haschk : Nat)
  | check (len : Nat)
  | rdw (idx : Nat)
  | wrw (idx data : Nat)
deriving DecidableEq, Repr

/-- Why a line has no request record: an operand wider than its field, or a list of the wrong length (R85,
R191 (3)). -/
inductive Unrepresentable where
  | addrTooWide
  | cmdTooWide
  | segTooWide
  | chkTooWide
  | haschkTooWide
  | countTooWide
  | lenTooWide
  | idxTooWide
  | wordTooWide
  | configListLength
  | cyclicListLength
deriving DecidableEq, Repr

/-- One thing a host gives the block to act on: a request record (R33), a textual request (R85), or a header
word arriving from the transport (R70, R162; log 7). -/
inductive Packet where
  | request (r : Request)
  | line (l : Line)
  | header (h : Word)
deriving DecidableEq, Repr

/-- What can happen to the block between operations: a host presents something (R7), the host named by its
number (R63); or reset (R200; log 6). -/
inductive Event where
  | present (host : Nat) (p : Packet)
  | reset
deriving DecidableEq, Repr

/-- Why decoding gives no instruction. -/
inductive DecodeError where
  /-- a reserved operation select code: the block answers ILLEGAL_OP (R81) -/
  | illegalOp (op : BitVec 4)
  /-- a header word whose command is reserved (R75): no table row stands for it -/
  | reservedCommand (h : Word)
  /-- a line with no request record (R85) -/
  | unrepresentable (why : Unrepresentable)
deriving DecidableEq, Repr

end Sys2Proof
end

