-- ==== Sys2Proof/Machine/Operands.lean ====
section
/-! DEFINITION. Operand forms: the header word's fields (spec/30_encoding.md R70 to R72) and the forms a
list operand takes (R83, R85). No operand of this hardware is sign-extended, scaled or indirect (R83). -/

namespace Sys2Proof

/-- `packHeader(a, s, c) = a[11:0] ++ s[0] ++ c[2:0]` (R71). -/
def packHeader (a : BitVec 12) (s : Bit) (c : BitVec 3) : Word := a ++ s ++ c

/-- `hdrAddr(h) = h[15:4]` (R72). -/
def hdrAddr (h : Word) : BitVec 12 := h.extractLsb' 4 12

/-- `hdrSeg(h) = h[3]` (R72). -/
def hdrSeg (h : Word) : Bit := h.extractLsb' 3 1

/-- `hdrCmd(h) = h[2:0]` (R72). -/
def hdrCmd (h : Word) : BitVec 3 := h.extractLsb' 0 3

/-- `cmd[2:0]`, the part of CONSTRUCT's command operand that enters the header (R83, R101). -/
def cmdLow (cmd : BitVec 8) : BitVec 3 := cmd.extractLsb' 0 3

/-- The list `ws` as a field of `k` words: cut to `k`, and the words the list does not give are 0 (R85). -/
def wordField (k : Nat) (ws : List Word) : Vector Word k :=
  Vector.mk (ws.take k ++ List.replicate (k - ws.length) 0).toArray (by simp; omega)

end Sys2Proof
end

