-- ==== Sys2Proof/Syntax.lean ====
section
/-! DEFINITION. The instructions: one constructor per row of spec/opcode_table.json. An operand has the
width of its request field (spec/10_state.md R33); `cyc` holds the words the request's format reads,
`cyc[0..min(n,123)-1]` (spec/30_encoding.md R82). -/

namespace Sys2Proof

/-- The nine operations (R80) and the six header words with a recognized command (R74). -/
inductive Instr where
  /-- CONSTRUCT, op 0x1, format F-ENC (R100). -/
  | construct (addr : BitVec 12) (cmd : BitVec 8) (seg : Bit) (cfg : Vector Word 4) (n : BitVec 8)
      (cyc : List Word) (chk : Bit)
  /-- GETADDR, op 0x2, format F-NONE (R120). -/
  | getaddr
  /-- GETCMD, op 0x3, format F-NONE (R122). -/
  | getcmd
  /-- GETSEG, op 0x4, format F-NONE (R124). -/
  | getseg
  /-- GETCFG, op 0x5, format F-NONE (R126). -/
  | getcfg
  /-- GETCYC, op 0x6, format F-LENCHK (R128). -/
  | getcyc (len : BitVec 8) (haschk : Bit)
  /-- CHECK, op 0x7, format F-LEN (R145). -/
  | check (len : BitVec 8)
  /-- RDW, op 0x8, format F-IDX (R160). -/
  | rdw (idx : BitVec 7)
  /-- WRW, op 0x9, format F-IDXDATA (R161). -/
  | wrw (idx : BitVec 7) (data : Word)
  /-- HDR.READ, header bits 2:0 = 1 (R74). -/
  | hdrRead (addr : BitVec 12) (seg : Bit)
  /-- HDR.WRITE, header bits 2:0 = 2 (R74). -/
  | hdrWrite (addr : BitVec 12) (seg : Bit)
  /-- HDR.ACK, header bits 2:0 = 3 (R74). -/
  | hdrAck (addr : BitVec 12) (seg : Bit)
  /-- HDR.READ_ERROR, header bits 2:0 = 5 (R74). -/
  | hdrReadError (addr : BitVec 12) (seg : Bit)
  /-- HDR.WRITE_ERROR, header bits 2:0 = 6 (R74). -/
  | hdrWriteError (addr : BitVec 12) (seg : Bit)
  /-- HDR.IDLE, header bits 2:0 = 7 (R74). -/
  | hdrIdle (addr : BitVec 12) (seg : Bit)
deriving DecidableEq, Repr

/-- The mnemonic of an instruction's row in spec/opcode_table.json. -/
def Instr.mnemonic : Instr → String
  | .construct _ _ _ _ _ _ _ => "CONSTRUCT"
  | .getaddr => "GETADDR"
  | .getcmd => "GETCMD"
  | .getseg => "GETSEG"
  | .getcfg => "GETCFG"
  | .getcyc _ _ => "GETCYC"
  | .check _ => "CHECK"
  | .rdw _ => "RDW"
  | .wrw _ _ => "WRW"
  | .hdrRead _ _ => "HDR.READ"
  | .hdrWrite _ _ => "HDR.WRITE"
  | .hdrAck _ _ => "HDR.ACK"
  | .hdrReadError _ _ => "HDR.READ_ERROR"
  | .hdrWriteError _ _ => "HDR.WRITE_ERROR"
  | .hdrIdle _ _ => "HDR.IDLE"

end Sys2Proof
end

