-- ==== Sys2Proof/WellFormed.lean ====
section
/-! DEFINITION. What a well-formed instruction is. Every fixed-width operand is in range by its type; the
one relation between operands is the length of CONSTRUCT's cyclic list (spec/30_encoding.md R82, R85). -/

namespace Sys2Proof

/-- How many cyclic words the request format F-ENC reads for a count `n`: `min(n, 123)` (R82). -/
def cyclicWordsRead (n : BitVec 8) : Nat := min n.toNat Config.cyclicMaxNoChk

/-- CONSTRUCT's cyclic list holds exactly `min(n, 123)` words (R85: a request "whose cyclic list has the
wrong length" is refused). -/
def Instr.wellFormed : Instr → Bool
  | .construct _ _ _ _ n cyc _ => cyc.length == cyclicWordsRead n
  | .getaddr => true
  | .getcmd => true
  | .getseg => true
  | .getcfg => true
  | .getcyc _ _ => true
  | .check _ => true
  | .rdw _ => true
  | .wrw _ _ => true
  | .hdrRead _ _ => true
  | .hdrWrite _ _ => true
  | .hdrAck _ _ => true
  | .hdrReadError _ _ => true
  | .hdrWriteError _ _ => true
  | .hdrIdle _ _ => true

end Sys2Proof
end

