-- ==== Sys2Proof/Machine/Assembler.lean ====
section
/-! DEFINITION. From a textual request to a request record (spec/30_encoding.md R85, R86): an operand that
does not fit its field, or a list of the wrong length, has no record (R191 (3); log 10). -/

namespace Sys2Proof

/-- The value as a field of `width` bits, or the reason why it has none (R85). -/
def fitField (width : Nat) (v : Nat) (why : Unrepresentable) : Except Unrepresentable (BitVec width) :=
  if v < 2 ^ width then .ok (BitVec.ofNat width v) else .error why

/-- The values as words, "any word > 0xFFFF" being refused (R85). -/
def fitWords : List Nat → Except Unrepresentable (List Word)
  | [] => .ok []
  | v :: vs =>
    match fitField 16 v .wordTooWide with
    | .error e => .error e
    | .ok w =>
      match fitWords vs with
      | .error e => .error e
      | .ok ws => .ok (w :: ws)

/-- The pseudo-forms of R86, as the request they abbreviate: a missing `n` is the cyclic list's length, an
empty config list is four zeros, and IDLE is CONSTRUCT with command 7. -/
def Line.expand : Line → Line
  | .construct addr cmd seg cfg n cyc chk =>
    .construct addr cmd seg (if cfg.isEmpty then [0, 0, 0, 0] else cfg) (some (n.getD cyc.length)) cyc chk
  | .idle addr chk => .construct addr 7 0 [0, 0, 0, 0] (some 0) [] chk
  | .getaddr => .getaddr
  | .getcmd => .getcmd
  | .getseg => .getseg
  | .getcfg => .getcfg
  | .getcyc len haschk => .getcyc len haschk
  | .check len => .check len
  | .rdw idx => .rdw idx
  | .wrw idx data => .wrw idx data

/-- CONSTRUCT's record from its operands (R85): op 0x1 and the fields of format F-ENC. -/
def assembleConstruct (addr cmd seg : Nat) (cfg : List Nat) (n : Nat) (cyc : List Nat) (chk : Nat) :
    Except Unrepresentable Request := do
  let a ← fitField 12 addr .addrTooWide
  let c ← fitField 8 cmd .cmdTooWide
  let g ← fitField 1 seg .segTooWide
  let k ← fitField 8 n .countTooWide
  let h ← fitField 1 chk .chkTooWide
  let cfgWords ← fitWords cfg
  let cycWords ← fitWords cyc
  if cfg.length ≠ 4 then .error .configListLength
  else if cyc.length ≠ cyclicWordsRead k then .error .cyclicListLength
  else
    .ok { Request.zero with
      op := 1, addr := a, cmd := c, seg := g, cfg := wordField 4 cfgWords, n := k
      cyc := wordField 123 cycWords, chk := h }

/-- The request record of a line, or why there is none (R85, R86). Fields the line does not give are 0. -/
def assemble (l : Line) : Except Unrepresentable Request :=
  match l.expand with
  | .construct addr cmd seg cfg n cyc chk => assembleConstruct addr cmd seg cfg (n.getD cyc.length) cyc chk
  | .idle addr chk => assembleConstruct addr 7 0 [0, 0, 0, 0] 0 [] chk
  | .getaddr => .ok { Request.zero with op := 2 }
  | .getcmd => .ok { Request.zero with op := 3 }
  | .getseg => .ok { Request.zero with op := 4 }
  | .getcfg => .ok { Request.zero with op := 5 }
  | .getcyc len haschk => do
    let l ← fitField 8 len .lenTooWide
    let h ← fitField 1 haschk .haschkTooWide
    .ok { Request.zero with op := 6, len := l, haschk := h }
  | .check len => do
    let l ← fitField 8 len .lenTooWide
    .ok { Request.zero with op := 7, len := l }
  | .rdw idx => do
    let i ← fitField 7 idx .idxTooWide
    .ok { Request.zero with op := 8, idx := i }
  | .wrw idx data => do
    let i ← fitField 7 idx .idxTooWide
    let d ← fitField 16 data .wordTooWide
    .ok { Request.zero with op := 9, idx := i, data := d }

end Sys2Proof
end

