-- ==== Sys2Proof/Machine/Flags.lean ====
section
/-! DEFINITION. The block has no flags (spec/10_state.md R31); what stands in their place are the computed
outputs of a response: the classification of a command code (spec/30_encoding.md R74) and the status codes
(spec/60_exceptions.md R180). -/

namespace Sys2Proof

/-- `b2w(b)` (spec/00_scope.md R14). -/
def b2w (b : Bool) : Bit := BitVec.ofBool b

/-- `recognized(c) = c in {1, 2, 3, 5, 6, 7}` (R74). -/
def recognized (c : Nat) : Bool := [1, 2, 3, 5, 6, 7].contains c

/-- `kind(c)` (R74). -/
def kind (c : Nat) : Kind :=
  match c with
  | 1 => .read
  | 2 => .write
  | 3 => .ack
  | 5 => .readError
  | 6 => .writeError
  | 7 => .idle
  | _ => .unrecognized

/-- The class of a command code: request 1, 2, 7; reply 3, 5, 6; else reserved (R74, R16). -/
def cmdClass (c : Nat) : CmdClass :=
  match c with
  | 1 => .request
  | 2 => .request
  | 7 => .request
  | 3 => .reply
  | 5 => .reply
  | 6 => .reply
  | _ => .reserved

/-- The 3-bit value of a status (R180). -/
def Status.code : Status → BitVec 3
  | .ok => 0
  | .invalidCommand => 1
  | .oversizedPayload => 2
  | .badLength => 3
  | .illegalOp => 4

end Sys2Proof
end

