-- ==== Sys2Proof/Decode.lean ====
section
/-! DEFINITION. Operation decode (spec/30_encoding.md R80 to R84), header decode (R70, R72, R74), the encoder
after them, and the packing of a request record into one number, which the opcode table's words need and the
spec does not give (R7; log 9). -/

namespace Sys2Proof

/-- The instruction of a request record: `op` selects it (R80), and the fields its format lists are read
(R82). A reserved code is no instruction (R81). -/
def decodeRequest (r : Request) : Except DecodeError Instr :=
  match r.op.toNat with
  | 1 => .ok (.construct r.addr r.cmd r.seg r.cfg r.n (r.cyc.toList.take (cyclicWordsRead r.n)) r.chk)
  | 2 => .ok .getaddr
  | 3 => .ok .getcmd
  | 4 => .ok .getseg
  | 5 => .ok .getcfg
  | 6 => .ok (.getcyc r.len r.haschk)
  | 7 => .ok (.check r.len)
  | 8 => .ok (.rdw r.idx)
  | 9 => .ok (.wrw r.idx r.data)
  | _ => .error (.illegalOp r.op)

/-- The row of a header word: its bits 2:0 select it (R70, R74). Commands 0 and 4 are reserved (R75). -/
def decodeHeader (h : Word) : Except DecodeError Instr :=
  match (hdrCmd h).toNat with
  | 1 => .ok (.hdrRead (hdrAddr h) (hdrSeg h))
  | 2 => .ok (.hdrWrite (hdrAddr h) (hdrSeg h))
  | 3 => .ok (.hdrAck (hdrAddr h) (hdrSeg h))
  | 5 => .ok (.hdrReadError (hdrAddr h) (hdrSeg h))
  | 6 => .ok (.hdrWriteError (hdrAddr h) (hdrSeg h))
  | 7 => .ok (.hdrIdle (hdrAddr h) (hdrSeg h))
  | _ => .error (.reservedCommand h)

/-- The instruction of whatever a host presents, or why there is none. -/
def decode : Packet → Except DecodeError Instr
  | .request r => decodeRequest r
  | .header h => decodeHeader h
  | .line l =>
    match assemble l with
    | .ok r => decodeRequest r
    | .error why => .error (.unrepresentable why)

/-- The request record or header word of an instruction, from the same tables (R80, R82, R70, R74). A field
outside the format is 0. -/
def encode : Instr → Packet
  | .construct addr cmd seg cfg n cyc chk =>
    .request { Request.zero with
      op := 1, addr := addr, cmd := cmd, seg := seg, cfg := cfg, n := n, cyc := wordField 123 cyc, chk := chk }
  | .getaddr => .request { Request.zero with op := 2 }
  | .getcmd => .request { Request.zero with op := 3 }
  | .getseg => .request { Request.zero with op := 4 }
  | .getcfg => .request { Request.zero with op := 5 }
  | .getcyc len haschk => .request { Request.zero with op := 6, len := len, haschk := haschk }
  | .check len => .request { Request.zero with op := 7, len := len }
  | .rdw idx => .request { Request.zero with op := 8, idx := idx }
  | .wrw idx data => .request { Request.zero with op := 9, idx := idx, data := data }
  | .hdrRead addr seg => .header (packHeader addr seg 1)
  | .hdrWrite addr seg => .header (packHeader addr seg 2)
  | .hdrAck addr seg => .header (packHeader addr seg 3)
  | .hdrReadError addr seg => .header (packHeader addr seg 5)
  | .hdrWriteError addr seg => .header (packHeader addr seg 6)
  | .hdrIdle addr seg => .header (packHeader addr seg 7)

/-- The widths of a request record's fields, in the order of R33's table, the first in the lowest bits
(log 9). -/
def requestWidths : List Nat :=
  [4, 12, 8, 1] ++ List.replicate 4 16 ++ [8] ++ List.replicate 123 16 ++ [1, 8, 1, 7, 16]

/-- The values of a request record's fields, in the same order. -/
def Request.values (r : Request) : List Nat :=
  [r.op.toNat, r.addr.toNat, r.cmd.toNat, r.seg.toNat] ++ r.cfg.toList.map BitVec.toNat ++ [r.n.toNat] ++
    r.cyc.toList.map BitVec.toNat ++ [r.chk.toNat, r.len.toNat, r.haschk.toNat, r.idx.toNat, r.data.toNat]

/-- Fields packed into a number, the first in the lowest bits. -/
def packFields : List Nat → List Nat → Nat
  | w :: ws, v :: vs => v + 2 ^ w * packFields ws vs
  | _, _ => 0

/-- The fields of a number, the first from its lowest bits. -/
def unpackFields : List Nat → Nat → List Nat
  | [], _ => []
  | w :: ws, x => x % 2 ^ w :: unpackFields ws (x / 2 ^ w)

/-- A request record as one number (log 9). -/
def Request.toBits (r : Request) : Nat := packFields requestWidths r.values

/-- The request record a number packs (log 9). -/
def Request.ofBits (x : Nat) : Request :=
  let vs := unpackFields requestWidths x
  { op := BitVec.ofNat 4 (vs.getD 0 0)
    addr := BitVec.ofNat 12 (vs.getD 1 0)
    cmd := BitVec.ofNat 8 (vs.getD 2 0)
    seg := BitVec.ofNat 1 (vs.getD 3 0)
    cfg := wordField 4 (((vs.drop 4).take 4).map (BitVec.ofNat 16))
    n := BitVec.ofNat 8 (vs.getD 8 0)
    cyc := wordField 123 (((vs.drop 9).take 123).map (BitVec.ofNat 16))
    chk := BitVec.ofNat 1 (vs.getD 132 0)
    len := BitVec.ofNat 8 (vs.getD 133 0)
    haschk := BitVec.ofNat 1 (vs.getD 134 0)
    idx := BitVec.ofNat 7 (vs.getD 135 0)
    data := BitVec.ofNat 16 (vs.getD 136 0) }

/-- The width of a header row of the opcode table. -/
def headerBits : Nat := 16

/-- The width of a request record, in whole bytes (its fields take 2098 bits; log 9). -/
def requestBits : Nat := 2104

/-- What the host presents for a word of the opcode table: a 16-bit row is a header word, any other row a
request record whose `op` is bits 3:0 (spec/opcode_table.json, R80; log 9). -/
def tablePacket (nbits w : Nat) : Packet :=
  if nbits = headerBits then .header (BitVec.ofNat 16 w) else .request (Request.ofBits w)

/-- The instruction of a table word, if it is one. -/
def decodeTableWord (nbits w : Nat) : Option Instr :=
  match decode (tablePacket nbits w) with
  | .ok i => some i
  | .error _ => none

/-- The width and the bits of an instruction's packet. A line has no bits: it is text (R85). -/
def Packet.bits : Packet → Nat × Nat
  | .request r => (requestBits, r.toBits)
  | .header h => (headerBits, h.toNat)
  | .line _ => (0, 0)

/-- A row of spec/opcode_table.json: the width of the words it is matched on, its mask and its match. -/
structure OpcodeRow where
  mnemonic : String
  nbits : Nat
  mask : Nat
  pattern : Nat
deriving DecidableEq, Repr

/-- spec/opcode_table.json, row by row; an operation row is matched on the 4-bit `op`, a header row on the
16-bit word (R80, R74). -/
def opcodeTable : List OpcodeRow :=
  [⟨"CONSTRUCT", 8, 0xF, 0x1⟩, ⟨"GETADDR", 8, 0xF, 0x2⟩, ⟨"GETCMD", 8, 0xF, 0x3⟩, ⟨"GETSEG", 8, 0xF, 0x4⟩,
    ⟨"GETCFG", 8, 0xF, 0x5⟩, ⟨"GETCYC", 8, 0xF, 0x6⟩, ⟨"CHECK", 8, 0xF, 0x7⟩, ⟨"RDW", 8, 0xF, 0x8⟩,
    ⟨"WRW", 8, 0xF, 0x9⟩, ⟨"HDR.READ", 16, 0x7, 0x1⟩, ⟨"HDR.WRITE", 16, 0x7, 0x2⟩, ⟨"HDR.ACK", 16, 0x7, 0x3⟩,
    ⟨"HDR.READ_ERROR", 16, 0x7, 0x5⟩, ⟨"HDR.WRITE_ERROR", 16, 0x7, 0x6⟩, ⟨"HDR.IDLE", 16, 0x7, 0x7⟩]

end Sys2Proof
end

