-- ==== Sys2Proof/Machine/Checksum.lean ====
section
/-! DEFINITION. The checksum function CHK16 (spec/42_checksum.md R140 to R144), its byte form (R142) and the
configured `checkFn` (R143, D6). CHK16 is no operation of its own (R153). -/

namespace Sys2Proof

/-- One turn of CHK16's inner loop: `fb := crc[15] ^ b; crc <- (crc << 1) & 0xFFFF; if fb = 1 then
crc <- crc ^ 0x1021` (R141). -/
def crcBit (crc : Word) (b : Bool) : Word :=
  if crc.getLsbD 15 != b then (crc <<< 1) ^^^ 0x1021 else crc <<< 1

/-- The bits of a word from bit 15 down to bit 0 (R141). -/
def wordBits (w : Word) : List Bool :=
  [15, 14, 13, 12, 11, 10, 9, 8, 7, 6, 5, 4, 3, 2, 1, 0].map fun i => w.getLsbD i

/-- CHK16's step over one word (R141). -/
def crcWord (crc : Word) (w : Word) : Word := (wordBits w).foldl crcBit crc

/-- `CHK16(ws)`: initial value 0xFFFF, words in list order, no final exclusive OR (R141). -/
def chk16 (ws : List Word) : Word := ws.foldl crcWord 0xFFFF

/-- The bits of a byte from bit 7 down to bit 0 (R142). -/
def byteBits (b : Byte) : List Bool := [7, 6, 5, 4, 3, 2, 1, 0].map fun i => b.getLsbD i

/-- CHK16's step over one byte, most significant bit first (R142). -/
def crcByte (crc : Word) (b : Byte) : Word := (byteBits b).foldl crcBit crc

/-- The byte form of CHK16 (R142). -/
def chk16Bytes (bs : List Byte) : Word := bs.foldl crcByte 0xFFFF

/-- A word's high byte, then its low byte (R142). -/
def bytesHighFirst (w : Word) : List Byte := [w.extractLsb' 8 8, w.extractLsb' 0 8]

/-- `checkFn`, the configured checksum function: CHK16 (R140, D6, I1; log 11). -/
def Config.checkFn : List Word → Word := chk16

/-- Requirement P4 of R143 on a checksum function: replacing one word of the list by another word changes
the result. -/
def DetectsSingleWord (f : List Word → Word) : Prop :=
  ∀ (ws : List Word) (j : Nat) (e : Word), j < ws.length → ws[j]? ≠ some e → f (ws.set j e) ≠ f ws

end Sys2Proof
end

