-- ==== Sys2Proof/Machine/Memory.lean ====
section
/-! DEFINITION. The frame buffer FB as data (spec/10_state.md R30, spec/20_memory.md R50): a list of
(word index, word) pairs with strictly rising indexes, all below 128, that lists exactly the written words
(spec/70_reset_and_hazards.md R201). An unlisted index has no value, so nothing is left out of the list for
its value (log 1, log 2). -/

namespace Sys2Proof

/-- The frame buffer: its written words, by index. -/
abbrev Memory := List (Nat × Word)

namespace Memory

/-- The canonical form: indexes strictly rising, each one of FB's 0..127. -/
abbrev wf (m : Memory) : Prop :=
  m.Pairwise (fun a b => a.1 < b.1) ∧ ∀ c ∈ m, c.1 < Config.capacity

/-- Word `i`, or nothing where word `i` is unwritten (R201). -/
def read : Memory → Nat → Option Word
  | [], _ => none
  | (j, w) :: m, i => if i = j then some w else read m i

/-- `FB[i] <- v` (R12), keeping the canonical form. -/
def write : Memory → Nat → Word → Memory
  | [], i, v => [(i, v)]
  | (j, w) :: m, i, v =>
    if i < j then (i, v) :: (j, w) :: m
    else if i = j then (i, v) :: m
    else (j, w) :: write m i v

/-- `FB[i+k] <- ws[k]` for k = 0, 1, ... (R12). -/
def writeList : Memory → Nat → List Word → Memory
  | m, _, [] => m
  | m, i, v :: vs => writeList (m.write i v) (i + 1) vs

/-- Whether word `i` has been written since reset (R201). -/
def written (m : Memory) (i : Nat) : Bool := (m.read i).isSome

end Memory

end Sys2Proof
end

