-- ==== Sys2Proof/Machine/State.lean ====
section
/-! DEFINITION. The machine's state. The frame buffer is the block's only architectural state
(spec/10_state.md R30, R31, R37); the other fields carry the request and response records of R33 and R34
across the block's interface (log 3, log 4, log 5). -/

namespace Sys2Proof.Machine

/-- The state of one block instance and its interface. -/
structure State where
  /-- FB[0..127]: its written words (R30, R201). -/
  fb : Memory
  /-- The response of the last operation performed; absent before the first (R34; log 3). -/
  resp : Option Response
  /-- What has been presented and not yet performed, oldest first (R7, R60; log 4). -/
  pending : List Event
  /-- The host whose request stream this instance takes; absent until a first request (R63; log 5). -/
  owner : Option Nat
deriving DecidableEq, Repr

/-- The machine right after reset: every word of FB unwritten (R38, R200, R201), nothing presented, no
response yet, no host yet (log 3, log 4, log 5). -/
def State.reset : State where
  fb := []
  resp := none
  pending := []
  owner := none

/-- Why the machine stops with a fault (R191 (2)). -/
inductive Fault where
  /-- Raised by the reads of every decoder operation, CHECK and RDW: word `idx` of FB is unwritten (R201).
  Safe: the model stops where the hardware returns some value (D17). -/
  | unwrittenWord (idx : Nat)
  /-- Raised by the shared read and write for an index above 127 (R12, R50). No operation reaches it.
  Safe: the model stops. -/
  | outsideBuffer (idx : Nat)
deriving DecidableEq, Repr

/-- Why the machine refuses (R191 (3)). -/
inductive Refusal where
  /-- Raised by a dispatch arm whose instruction has no meaning yet. Safe: the model stops. -/
  | notModelled (mnemonic : String)
  /-- Raised for a request that cannot be represented (R85, R191 (3)). Safe: the model stops at the request
  boundary (D4, D5). -/
  | unrepresentable (why : Unrepresentable)
  /-- Raised for a request of a second host on one instance (R63, R191 (3)). Safe: the model stops (D26). -/
  | secondHost
deriving DecidableEq, Repr

end Sys2Proof.Machine
end

