-- ==== Sys2Proof/Machine/Ops.lean ====
section
/-! DEFINITION. The shared operations every meaning is written over: MemRead and MemWrite (spec/00_scope.md
R12), the end of an operation with a response (R13, R34) and `raise` (R13, spec/60_exceptions.md R180 to
R185). The block has no exception entry and no return from one: an error is a response (R185). -/

namespace Sys2Proof.Machine

/-- `MemRead(i, n)`: the words FB[i], ..., FB[i+n-1] (R12). Reading an unwritten word is a fault (R201); the
fault names the first such word in index order (log 16). -/
def memRead (fb : Memory) (i : Nat) : Nat → Except Fault (List Word)
  | 0 => .ok []
  | n + 1 =>
    if i < Config.capacity then
      match fb.read i with
      | none => .error (.unwrittenWord i)
      | some w =>
        match memRead fb (i + 1) n with
        | .ok ws => .ok (w :: ws)
        | .error f => .error f
    else .error (.outsideBuffer i)

/-- `MemWrite(i, n, ws)` with n = len(ws) (R12). -/
def memWrite (fb : Memory) (i : Nat) (ws : List Word) : Except Fault Memory :=
  if i + ws.length ≤ Config.capacity then .ok (fb.writeList i ws)
  else .error (.outsideBuffer (max i Config.capacity))

/-- Go on with the words `MemRead(i, n)`, or stop with the read's fault. -/
def readThen (s : State) (i n : Nat) (k : List Word → Host.Outcome State Fault Refusal) :
    Host.Outcome State Fault Refusal :=
  match memRead s.fb i n with
  | .ok ws => k ws
  | .error f => .fault f

/-- Go on with the word `FB[i]`, or stop with the fault of reading it (R12, R201). -/
def readWordThen (s : State) (i : Nat) (k : Word → Host.Outcome State Fault Refusal) :
    Host.Outcome State Fault Refusal :=
  if i < Config.capacity then
    match s.fb.read i with
    | some w => k w
    | none => .fault (.unwrittenWord i)
  else .fault (.outsideBuffer i)

/-- End an operation with response `r` (R13 `return`, R34). -/
def respond (r : Response) (s : State) : Host.Outcome State Fault Refusal :=
  .next { s with resp := some r }

/-- `raise <Status>()`: end the operation with an error status and the fields its rule sets on failure
(R13, R182); FB is as it was (R183). -/
def raise (st : Status) (fields : Response) (s : State) : Host.Outcome State Fault Refusal :=
  respond { fields with status := st } s

/-- The answer to a reserved operation select code: ILLEGAL_OP and no other field (R81, R182). -/
def illegalOp (s : State) : Host.Outcome State Fault Refusal :=
  raise .illegalOp { status := .illegalOp } s

/-- `FB[i] <- v` and status OK: the effect of WRW (R161), and of a header word that the transport delivers
into FB[0] (R162; log 7). -/
def storeWord (i : Nat) (v : Word) (s : State) : Host.Outcome State Fault Refusal :=
  match memWrite s.fb i [v] with
  | .ok fb => respond { status := .ok } { s with fb := fb }
  | .error f => .fault f

end Sys2Proof.Machine
end

