-- ==== Sys2Proof/Machine/Decoder.lean ====
section
/-! DEFINITION. The decoder: GETADDR, GETCMD, GETSEG, GETCFG, GETCYC (spec/41_decoder.md R120 to R131). -/

namespace Sys2Proof.Machine

/-- GETADDR (R120). -/
def execGetaddr (s : State) : Host.Outcome State Fault Refusal :=
  readWordThen s 0 fun h => respond { status := .ok, addr := some (hdrAddr h) } s

/-- GETCMD (R122, R123). -/
def execGetcmd (s : State) : Host.Outcome State Fault Refusal :=
  readWordThen s 0 fun h =>
    let c := hdrCmd h
    respond
      { status := .ok
        cmd := some c
        recognized := some (b2w (recognized c.toNat))
        kind := some (kind c.toNat) } s

/-- GETSEG (R124). -/
def execGetseg (s : State) : Host.Outcome State Fault Refusal :=
  readWordThen s 0 fun h => respond { status := .ok, seg := some (hdrSeg h) } s

/-- GETCFG (R126). -/
def execGetcfg (s : State) : Host.Outcome State Fault Refusal :=
  readThen s Config.configBase Config.configWords fun ws =>
    respond { status := .ok, size := some 4, words := some ws } s

/-- GETCYC (R128). -/
def execGetcyc (len : BitVec 8) (haschk : Bit) (s : State) : Host.Outcome State Fault Refusal :=
  if len.toNat > Config.capacity ∨ len.toNat < 5 + haschk.toNat then
    raise .badLength { status := .badLength, size := some 0, words := some [] } s
  else
    let n := len.toNat - 5 - haschk.toNat
    readThen s Config.cyclicBase n fun ws =>
      respond { status := .ok, size := some (BitVec.ofNat 8 n), words := some ws } s

end Sys2Proof.Machine
end

