-- ==== Sys2Proof/Machine/Encoder.lean ====
section
/-! DEFINITION. The encoder: CONSTRUCT (spec/40_encoder.md R100 to R112). -/

namespace Sys2Proof.Machine

/-- `1 + 4 + n + chk`, the occupied size of the frame asked for, in exact arithmetic (R52, R103, R11). -/
def frameSize (n : BitVec 8) (chk : Bit) : Nat :=
  Config.headerWords + Config.configWords + n.toNat + chk.toNat

/-- CONSTRUCT's writes (R101, R104, R105): header, config, cyclic, and with `chk` = 1 the checksum of the
words just written. Answers the occupied size and the new FB. -/
def buildFrame (checkFn : List Word → Word) (header : Word) (cfg cyc : List Word) (chk : Bit) (fb : Memory) :
    Except Fault (Nat × Memory) :=
  match memWrite fb 0 [header] with
  | .error f => .error f
  | .ok fb1 =>
    match memWrite fb1 Config.configBase cfg with
    | .error f => .error f
    | .ok fb2 =>
      match memWrite fb2 Config.cyclicBase cyc with
      | .error f => .error f
      | .ok fb3 =>
        let size := Config.cyclicBase + cyc.length
        if chk = 1 then
          match memRead fb3 0 size with
          | .error f => .error f
          | .ok ws =>
            match memWrite fb3 size [checkFn ws] with
            | .error f => .error f
            | .ok fb4 => .ok (size + 1, fb4)
        else .ok (size, fb3)

/-- CONSTRUCT for any checksum function (R101, R143). A cyclic list of the wrong length is a request that
cannot be represented (R85, R191 (3); log 13). -/
def construct (checkFn : List Word → Word) (addr : BitVec 12) (cmd : BitVec 8) (seg : Bit)
    (cfg : Vector Word 4) (n : BitVec 8) (cyc : List Word) (chk : Bit) (s : State) :
    Host.Outcome State Fault Refusal :=
  if cyc.length ≠ cyclicWordsRead n then .refused (.unrepresentable .cyclicListLength)
  else if recognized cmd.toNat = false then
    raise .invalidCommand { status := .invalidCommand, size := some 0 } s
  else if frameSize n chk > Config.capacity then
    raise .oversizedPayload { status := .oversizedPayload, size := some 0 } s
  else
    match buildFrame checkFn (packHeader addr seg (cmdLow cmd)) cfg.toList cyc chk s.fb with
    | .error f => .fault f
    | .ok (size, fb) =>
      respond { status := .ok, size := some (BitVec.ofNat 8 size) } { s with fb := fb }

/-- CONSTRUCT (R100, R101), with the configured checksum function (R140). -/
def execConstruct (addr : BitVec 12) (cmd : BitVec 8) (seg : Bit) (cfg : Vector Word 4) (n : BitVec 8)
    (cyc : List Word) (chk : Bit) (s : State) : Host.Outcome State Fault Refusal :=
  construct Config.checkFn addr cmd seg cfg n cyc chk s

end Sys2Proof.Machine
end

