-- ==== Sys2Proof/Machine/Header.lean ====
section
/-! DEFINITION. The header words of spec/30_encoding.md R70 and R74 as things the block is given: the first
word of a frame that the transport received, which the host writes into FB[0] (spec/43_buffer_access.md R162).
The effect is that of WRW with index 0 and the word packHeader(addr, seg, code) (R161, R71; log 7). -/

namespace Sys2Proof.Machine

/-- A header word arrives: FB[0] <- h (R162). -/
def receiveHeader (h : Word) (s : State) : Host.Outcome State Fault Refusal := storeWord 0 h s

/-- HDR.READ: command 1 (R74). -/
def execHdrRead (addr : BitVec 12) (seg : Bit) (s : State) : Host.Outcome State Fault Refusal :=
  receiveHeader (packHeader addr seg 1) s

/-- HDR.WRITE: command 2 (R74). -/
def execHdrWrite (addr : BitVec 12) (seg : Bit) (s : State) : Host.Outcome State Fault Refusal :=
  receiveHeader (packHeader addr seg 2) s

/-- HDR.ACK: command 3 (R74). -/
def execHdrAck (addr : BitVec 12) (seg : Bit) (s : State) : Host.Outcome State Fault Refusal :=
  receiveHeader (packHeader addr seg 3) s

/-- HDR.READ_ERROR: command 5 (R74). -/
def execHdrReadError (addr : BitVec 12) (seg : Bit) (s : State) : Host.Outcome State Fault Refusal :=
  receiveHeader (packHeader addr seg 5) s

/-- HDR.WRITE_ERROR: command 6 (R74). -/
def execHdrWriteError (addr : BitVec 12) (seg : Bit) (s : State) : Host.Outcome State Fault Refusal :=
  receiveHeader (packHeader addr seg 6) s

/-- HDR.IDLE: command 7 (R74). -/
def execHdrIdle (addr : BitVec 12) (seg : Bit) (s : State) : Host.Outcome State Fault Refusal :=
  receiveHeader (packHeader addr seg 7) s

end Sys2Proof.Machine
end

