-- ==== Sys2Proof/Machine/Port.lean ====
section
/-! DEFINITION. The host word port: RDW, WRW (spec/43_buffer_access.md R160, R161). -/

namespace Sys2Proof.Machine

/-- RDW (R160). -/
def execRdw (idx : BitVec 7) (s : State) : Host.Outcome State Fault Refusal :=
  readWordThen s idx.toNat fun w => respond { status := .ok, data := some w } s

/-- WRW (R161). -/
def execWrw (idx : BitVec 7) (data : Word) (s : State) : Host.Outcome State Fault Refusal :=
  storeWord idx.toNat data s

end Sys2Proof.Machine
end

