-- ==== Sys2Proof/Machine/Verifier.lean ====
section
/-! DEFINITION. The checksum verifier: CHECK (spec/42_checksum.md R145 to R152). -/

namespace Sys2Proof.Machine

/-- CHECK for any checksum function (R145, R143). A mismatch is `valid` = 0 with status OK (R146); on a frame
without a checksum word the same comparison is made (R147; log 19). -/
def verify (checkFn : List Word → Word) (len : BitVec 8) (s : State) : Host.Outcome State Fault Refusal :=
  if len.toNat < 6 ∨ len.toNat > Config.capacity then
    raise .badLength { status := .badLength, valid := some 0 } s
  else
    readThen s 0 (len.toNat - 1) fun ws =>
      readWordThen s (len.toNat - 1) fun stored =>
        respond { status := .ok, valid := some (b2w (checkFn ws == stored)) } s

/-- CHECK (R145), with the configured checksum function (R140). -/
def execCheck (len : BitVec 8) (s : State) : Host.Outcome State Fault Refusal :=
  verify Config.checkFn len s

end Sys2Proof.Machine
end

