-- ==== Sys2Proof/Machine/Dispatch.lean ====
section
/-! DEFINITION. One arm per instruction. -/

namespace Sys2Proof.Machine

def exec (i : Instr) (s : State) : Host.Outcome State Fault Refusal :=
  match i with
  | .construct addr cmd seg cfg n cyc chk => Sys2Proof.Machine.execConstruct addr cmd seg cfg n cyc chk s
  | .getaddr => Sys2Proof.Machine.execGetaddr s
  | .getcmd => Sys2Proof.Machine.execGetcmd s
  | .getseg => Sys2Proof.Machine.execGetseg s
  | .getcfg => Sys2Proof.Machine.execGetcfg s
  | .getcyc len haschk => Sys2Proof.Machine.execGetcyc len haschk s
  | .check len => Sys2Proof.Machine.execCheck len s
  | .rdw idx => Sys2Proof.Machine.execRdw idx s
  | .wrw idx data => Sys2Proof.Machine.execWrw idx data s
  | .hdrRead addr seg => Sys2Proof.Machine.execHdrRead addr seg s
  | .hdrWrite addr seg => Sys2Proof.Machine.execHdrWrite addr seg s
  | .hdrAck addr seg => Sys2Proof.Machine.execHdrAck addr seg s
  | .hdrReadError addr seg => Sys2Proof.Machine.execHdrReadError addr seg s
  | .hdrWriteError addr seg => Sys2Proof.Machine.execHdrWriteError addr seg s
  | .hdrIdle addr seg => Sys2Proof.Machine.execHdrIdle addr seg s

end Sys2Proof.Machine
end

