-- ==== Sys2Proof/Machine/Stream.lean ====
section
/-! DEFINITION. How the block takes what is presented to it (spec/00_scope.md R7, spec/20_memory.md R60, R63,
spec/60_exceptions.md R191, spec/70_reset_and_hazards.md R200). -/

namespace Sys2Proof.Machine

/-- The instance serves one host (R63): the first to present a request; a request of another has no state
to go on from (log 5). -/
def claim (host : Nat) (s : State) : Option State :=
  match s.owner with
  | none => some { s with owner := some host }
  | some h => if h = host then some s else none

/-- Reset, taken between operations (R200): the state of `State.reset`; what is still presented stays
presented (log 6). -/
def takeReset (s : State) : State := { State.reset with pending := s.pending }

/-- What the block does with a packet that is no instruction: ILLEGAL_OP for a reserved select code (R81), a
header word with a reserved command received like any word (R161, R162; log 8), a refusal for a line that
cannot be represented (R191 (3)). -/
def answerUndecodable (e : DecodeError) (s : State) : Host.Outcome State Fault Refusal :=
  match e with
  | .illegalOp _ => illegalOp s
  | .reservedCommand h => receiveHeader h s
  | .unrepresentable why => .refused (.unrepresentable why)

/-- Perform one packet. ILLEGAL_OP is decided from `op` alone, before any operand is examined (R184). -/
def perform (p : Packet) (s : State) : Host.Outcome State Fault Refusal :=
  match decode p with
  | .ok i => exec i s
  | .error e => answerUndecodable e s

/-- One event, already taken off the stream. -/
def handle (ev : Event) (s : State) : Host.Outcome State Fault Refusal :=
  match ev with
  | .reset => .next (takeReset s)
  | .present host p =>
    match claim host s with
    | none => .refused .secondHost
    | some t => perform p t

/-- The state with a packet presented ahead of everything else, by the host the instance serves (or host 0
where it serves none yet). -/
def presentFirst (p : Packet) (s : State) : State :=
  { s with pending := .present (s.owner.getD 0) p :: s.pending }

end Sys2Proof.Machine
end

