-- ==== Sys2Proof/Machine/Step.lean ====
section
/-! DEFINITION. One step: the oldest thing presented, performed as one atomic operation (spec/00_scope.md R7,
spec/20_memory.md R60). The block fetches no instructions (R62); the request stream is what the step reads. -/

namespace Sys2Proof.Machine

/-- With nothing presented the block does nothing (log 4). -/
def step (s : State) : Host.Outcome State Fault Refusal :=
  match s.pending with
  | [] => .next s
  | ev :: rest => handle ev { s with pending := rest }

/-- `s` with the instruction of an opcode-table word presented next (log 4, log 9). -/
def State.withFetchWord (s : State) (nbits w : Nat) : State := presentFirst (tablePacket nbits w) s

end Sys2Proof.Machine
end

