-- ==== Sys2Proof/Machine/Transport.lean ====
section
/-! DEFINITION. The host's two transport procedures over the word port (spec/43_buffer_access.md R162), and
the bytes of a frame on the wire (spec/20_memory.md R55, R56, D16). Beside the machine: no operation of the
block depends on them. -/

namespace Sys2Proof.Machine

/-- Perform a list of operations in order (R60), collecting their responses. -/
def performAll : List Instr → State → Host.Outcome (List Response × State) Fault Refusal
  | [], s => .next ([], s)
  | i :: is, s =>
    match exec i s with
    | .fault f => .fault f
    | .refused r => .refused r
    | .next t =>
      match performAll is t with
      | .fault f => .fault f
      | .refused r => .refused r
      | .next (rs, u) => .next (t.resp.toList ++ rs, u)

/-- To receive a frame: WRW of the received words into FB[i], FB[i+1], ... in index order (R162). -/
def receiveFrom : Nat → List Word → List Instr
  | _, [] => []
  | i, w :: ws => .wrw (BitVec.ofNat 7 i) w :: receiveFrom (i + 1) ws

/-- To receive a frame into FB[0..L-1] (R162). -/
def receiveFrame (ws : List Word) : List Instr := receiveFrom 0 ws

/-- To transmit a frame: RDW of FB[0..SIZE-1] (R162). -/
def transmitFrame (size : Nat) : List Instr := (List.range size).map fun i => .rdw (BitVec.ofNat 7 i)

/-- The words that responses to RDW carry. -/
def readOut (rs : List Response) : List Word := rs.filterMap fun r => r.data

/-- The bytes of one word in a given order (R56). -/
def wordBytes (o : Config.ByteOrder) (w : Word) : List Byte :=
  match o with
  | .highFirst => bytesHighFirst w
  | .lowFirst => (bytesHighFirst w).reverse

/-- A frame's bytes on the wire: the words in FB index order (R55), the bytes of each in the transport's
order (R56). -/
def wireBytes (o : Config.ByteOrder) (ws : List Word) : List Byte := ws.flatMap (wordBytes o)

/-- The words of a byte sequence from the wire; `none` for an odd number of bytes. -/
def wireWords (o : Config.ByteOrder) : List Byte → Option (List Word)
  | [] => some []
  | [_] => none
  | a :: b :: bs =>
    (wireWords o bs).map fun ws =>
      (match o with
        | .highFirst => a ++ b
        | .lowFirst => b ++ a) :: ws

/-- The bytes of a frame in the transport's own byte order, which is OPEN (R8, D16; log 12). -/
def onWire (ws : List Word) : List Byte := wireBytes Config.wireByteOrder ws

/-- The words of received bytes in the transport's own byte order, which "must be the same on both ends"
(R56). -/
def offWire (bs : List Byte) : Option (List Word) := wireWords Config.wireByteOrder bs

end Sys2Proof.Machine
end

