-- ==== Sys2Proof/Safety.lean ====
section
/-! DEFINITION. What claims about runs are stated with: the invariant of the state, and the host's obligations
(spec/70_reset_and_hazards.md R202 to R209), which the block does not check (N21). -/

namespace Sys2Proof.Machine

/-- What R34 says of every response: `words` has length `size`, `size` is at most 128, and GETCMD's outputs
agree (R123). -/
def ResponseOk (r : Response) : Prop :=
  (∀ ws, r.words = some ws → r.size = some (BitVec.ofNat 8 ws.length) ∧ ws.length ≤ Config.cyclicMaxNoChk) ∧
  (∀ z, r.size = some z → z.toNat ≤ Config.capacity) ∧
  (∀ c, r.cmd = some c →
    r.recognized = some (b2w (recognized c.toNat)) ∧ r.kind = some (kind c.toNat))

/-- FB is in canonical form, no index beyond 127 (R30, R12), and the response is one R34 allows. -/
def State.Inv (s : State) : Prop := s.fb.wf ∧ ∀ r, s.resp = some r → ResponseOk r

/-- Words 0..size-1 of FB have all been written (R201, R202). -/
def FramePlaced (fb : Memory) (size : Nat) : Prop := ∀ i, i < size → fb.written i = true

/-- The words of FB an operation reads that it has not itself written (R201, R36). GETCYC and CHECK read none
where they answer BAD_LENGTH; CONSTRUCT reads only what it has just written. -/
def Reads (i : Instr) (k : Nat) : Prop :=
  match i with
  | .construct _ _ _ _ _ _ _ => False
  | .getaddr => k = 0
  | .getcmd => k = 0
  | .getseg => k = 0
  | .getcfg => 1 ≤ k ∧ k ≤ 4
  | .getcyc len haschk => len.toNat ≤ Config.capacity ∧ 5 ≤ k ∧ k + haschk.toNat < len.toNat
  | .check len => 6 ≤ len.toNat ∧ len.toNat ≤ Config.capacity ∧ k < len.toNat
  | .rdw idx => k = idx.toNat
  | .wrw _ _ => False
  | .hdrRead _ _ => False
  | .hdrWrite _ _ => False
  | .hdrAck _ _ => False
  | .hdrReadError _ _ => False
  | .hdrWriteError _ _ => False
  | .hdrIdle _ _ => False

/-- The words of FB an operation writes (R36, R104): CONSTRUCT words 0..SIZE-1 of an accepted frame, WRW word
`idx`, a received header word 0 (log 7). -/
def Writes (i : Instr) (k : Nat) : Prop :=
  match i with
  | .construct _ cmd _ _ n _ chk =>
    recognized cmd.toNat = true ∧ frameSize n chk ≤ Config.capacity ∧ k < frameSize n chk
  | .getaddr => False
  | .getcmd => False
  | .getseg => False
  | .getcfg => False
  | .getcyc _ _ => False
  | .check _ => False
  | .rdw _ => False
  | .wrw idx _ => k = idx.toNat
  | .hdrRead _ _ => k = 0
  | .hdrWrite _ _ => k = 0
  | .hdrAck _ _ => k = 0
  | .hdrReadError _ _ => k = 0
  | .hdrWriteError _ _ => k = 0
  | .hdrIdle _ _ => k = 0

/-- A line every operand of which fits its field and whose lists have the right lengths (R85, R86). -/
def LineFits : Line → Prop
  | .construct addr cmd seg cfg n cyc chk =>
    addr ≤ 0xFFF ∧ cmd ≤ 255 ∧ seg ≤ 1 ∧ chk ≤ 1 ∧ n.getD cyc.length ≤ 255 ∧
      (cfg.length = 0 ∨ cfg.length = 4) ∧ (∀ w ∈ cfg, w ≤ 0xFFFF) ∧
      cyc.length = min (n.getD cyc.length) 123 ∧ (∀ w ∈ cyc, w ≤ 0xFFFF)
  | .idle addr chk => addr ≤ 0xFFF ∧ chk ≤ 1
  | .getaddr => True
  | .getcmd => True
  | .getseg => True
  | .getcfg => True
  | .getcyc len haschk => len ≤ 255 ∧ haschk ≤ 1
  | .check len => len ≤ 255
  | .rdw idx => idx ≤ 127
  | .wrw idx data => idx ≤ 127 ∧ data ≤ 0xFFFF

/-- FB holds a frame of `size` words whose last word is the checksum of the words before it: what CHECK's
precondition asks for (R147, R205). -/
def CarriesChecksum (checkFn : List Word → Word) (fb : Memory) (size : Nat) : Prop :=
  ∃ ws, memRead fb 0 (size - 1) = .ok ws ∧ fb.read (size - 1) = some (checkFn ws)

/-- What the host must keep of the frame in FB, because the block does not (R32, R204). -/
structure HostView where
  size : Nat
  chk : Bit
deriving DecidableEq, Repr

/-- The sizes a frame can have (R52). -/
def HostView.Legal (v : HostView) : Prop := 5 + v.chk.toNat ≤ v.size ∧ v.size ≤ Config.capacity

/-- The requests the obligations allow: decode only with a frame in FB (R202), GETCYC with its true size and
checksum presence and CHECK with its true size (R204), CHECK only on a frame with a checksum (R205), read out
only words of the frame (R207), and nothing of a failed CONSTRUCT (R206: there is then no view). -/
def Lawful (v : Option HostView) : Instr → Prop
  | .construct _ _ _ _ _ _ _ => True
  | .getaddr => v.isSome = true
  | .getcmd => v.isSome = true
  | .getseg => v.isSome = true
  | .getcfg => v.isSome = true
  | .getcyc len haschk => ∃ f, v = some f ∧ len.toNat = f.size ∧ haschk = f.chk
  | .check len => ∃ f, v = some f ∧ f.chk = 1 ∧ len.toNat = f.size
  | .rdw idx => ∃ f, v = some f ∧ idx.toNat < f.size
  | .wrw _ _ => True
  | .hdrRead _ _ => True
  | .hdrWrite _ _ => True
  | .hdrAck _ _ => True
  | .hdrReadError _ _ => True
  | .hdrWriteError _ _ => True
  | .hdrIdle _ _ => True

/-- The view after CONSTRUCT answered `r` for a request with flag `chk`: its size and flag on success, none
on failure (R106, R206). -/
def viewOfConstruct (chk : Bit) (r : Option Response) : Option HostView :=
  match r with
  | some { status := .ok, size := some z, .. } => some ⟨z.toNat, chk⟩
  | _ => none

/-- The host's view after an operation that left state `t`: a changed word ends the frame it knew (R208). -/
def viewAfter (v : Option HostView) (i : Instr) (t : State) : Option HostView :=
  match i with
  | .construct _ _ _ _ _ _ chk => viewOfConstruct chk t.resp
  | .getaddr => v
  | .getcmd => v
  | .getseg => v
  | .getcfg => v
  | .getcyc _ _ => v
  | .check _ => v
  | .rdw _ => v
  | .wrw _ _ => none
  | .hdrRead _ _ => none
  | .hdrWrite _ _ => none
  | .hdrAck _ _ => none
  | .hdrReadError _ _ => none
  | .hdrWriteError _ _ => none
  | .hdrIdle _ _ => none

/-- A step of a host: a request, or the knowledge that a received frame of a known length now stands in FB
(R202). -/
inductive HostAction where
  | request (i : Instr)
  | received (f : HostView)
deriving DecidableEq, Repr

/-- A host that keeps R202 to R207 from state `s` on: every request is lawful and representable, and a frame
is taken as received only when it is all there. -/
def KeepsObligations : Option HostView → State → List HostAction → Prop
  | _, _, [] => True
  | _, s, .received f :: as => f.Legal ∧ FramePlaced s.fb f.size ∧ KeepsObligations (some f) s as
  | v, s, .request i :: as =>
    i.wellFormed = true ∧ Lawful v i ∧ ∀ t, exec i s = .next t → KeepsObligations (viewAfter v i t) t as

/-- The actions of a host, performed in order. -/
def runHost : List HostAction → State → Host.Outcome State Fault Refusal
  | [], s => .next s
  | .received _ :: as, s => runHost as s
  | .request i :: as, s =>
    match exec i s with
    | .next t => runHost as t
    | .fault f => .fault f
    | .refused r => .refused r

end Sys2Proof.Machine
end

