-- ==== Sys2Proof/Certificates/Slice0/Obligations.lean ====
section
/-! DEFINITION. The statements for the provers, in the order of OBLIGATIONS.json. -/

open Sys2Proof Sys2Proof.Machine

/-! ### Encoding -/

/-- The `op` codes of R80 and header words of R70 and R74, written out bit by bit. How a table word is read is
the model's choice (log 9): an 8-bit word is a request record with `op` in bits 3:0 and every operand 0, a
16-bit word is a header word. -/
def Obligations.SampleWordsDecode : Prop :=
  decodeTableWord 8 0b0010 = some .getaddr ∧
  decodeTableWord 8 0b0111 = some (.check 0) ∧
  decodeTableWord 8 0b1001 = some (.wrw 0 0) ∧
  decodeTableWord 8 0b1111 = none ∧
  decodeTableWord 16 0b0000000010100010 = some (.hdrWrite 0x00A 0) ∧
  decodeTableWord 16 0b1111111111111001 = some (.hdrRead 0xFFF 1) ∧
  decodeTableWord 16 0b1000000000000100 = none

/-- Every word that matches a row of the opcode table under its mask decodes to that row's instruction (the
masks and patterns are those of spec/opcode_table.json). That the words of a row are 8 or 16 bits wide, and
that their width tells a request from a header, is the model's choice (log 9). -/
def Obligations.TableRowsDecodeByMask : Prop :=
  ∀ row ∈ opcodeTable, ∀ w : Nat, w < 2 ^ row.nbits → w &&& row.mask = row.pattern →
    ∃ i, decodeTableWord row.nbits w = some i ∧ i.mnemonic = row.mnemonic

/-- Decoding the request record or header word of a well-formed instruction gives it back (R33, R80, R82). -/
def Obligations.DecodeOfEncodeIsTheInstruction : Prop :=
  ∀ i : Instr, i.wellFormed = true → decode (encode i) = .ok i

/-- The same through the bits of the packed record (log 9: the packing is the model's choice). -/
def Obligations.DecodeOfPackedBitsIsTheInstruction : Prop :=
  ∀ i : Instr, i.wellFormed = true →
    decodeTableWord (encode i).bits.1 (encode i).bits.2 = some i

/-- R82: "A field not listed is ignored by that operation." Two records with the same `op` that agree on the
fields of its format decode alike. -/
def Obligations.UnlistedFieldsAreIgnored : Prop :=
  ∀ r r' : Request, r.op = r'.op →
    (r.op = 1 → r.addr = r'.addr ∧ r.cmd = r'.cmd ∧ r.seg = r'.seg ∧ r.cfg = r'.cfg ∧ r.n = r'.n ∧
      r.chk = r'.chk ∧ ∀ k, k < min r.n.toNat 123 → r.cyc.toList[k]? = r'.cyc.toList[k]?) →
    (r.op = 6 → r.len = r'.len ∧ r.haschk = r'.haschk) →
    (r.op = 7 → r.len = r'.len) →
    (r.op = 8 → r.idx = r'.idx) →
    (r.op = 9 → r.idx = r'.idx ∧ r.data = r'.data) →
    ((decode (.request r) = decode (.request r')) ∨
      (r.op.toNat = 0 ∨ 10 ≤ r.op.toNat) ∧ decode (.request r) = .error (.illegalOp r.op) ∧
        decode (.request r') = .error (.illegalOp r.op))

/-- Whatever decodes is well-formed: its cyclic list has `min(n, 123)` words (R82, R85). -/
def Obligations.DecodedInstructionsAreWellFormed : Prop :=
  ∀ (p : Packet) (i : Instr), decode p = .ok i → i.wellFormed = true

/-- R71. -/
def Obligations.PackHeaderIsShiftAndOr : Prop :=
  ∀ (a : BitVec 12) (s : Bit) (c : BitVec 3),
    packHeader a s c = a ++ s ++ c ∧
    packHeader a s c = (a.setWidth 16 <<< 4) ||| (s.setWidth 16 <<< 3) ||| c.setWidth 16

/-- R73. -/
def Obligations.HeaderPackingIsBijection : Prop :=
  (∀ (a : BitVec 12) (s : Bit) (c : BitVec 3),
    hdrAddr (packHeader a s c) = a ∧ hdrSeg (packHeader a s c) = s ∧ hdrCmd (packHeader a s c) = c) ∧
  ∀ h : Word, packHeader (hdrAddr h) (hdrSeg h) (hdrCmd h) = h

/-- R74. -/
def Obligations.CommandCodesHaveTheirKinds : Prop :=
  (kind 1 = .read ∧ kind 2 = .write ∧ kind 3 = .ack ∧ kind 5 = .readError ∧ kind 6 = .writeError ∧
    kind 7 = .idle) ∧
  (∀ c, kind c = .unrecognized ↔ c = 0 ∨ c = 4 ∨ 8 ≤ c) ∧
  (∀ c, recognized c = true ↔ c ∈ [1, 2, 3, 5, 6, 7]) ∧
  (∀ c, cmdClass c = .request ↔ c = 1 ∨ c = 2 ∨ c = 7) ∧
  (∀ c, cmdClass c = .reply ↔ c = 3 ∨ c = 5 ∨ c = 6) ∧
  (∀ c, cmdClass c = .reserved ↔ c = 0 ∨ c = 4 ∨ 8 ≤ c)

/-- R85: a line decodes exactly where every operand fits its field and its lists have the right lengths, and a
line that does not is refused by the step. The refusal of the step rests on log 10. -/
def Obligations.LinesAreRefusedExactlyWhenTheyDoNotFit : Prop :=
  ∀ (l : Line) (s : State) (host : Nat) (rest : List Event),
    s.pending = .present host (.line l) :: rest → s.owner = none ∨ s.owner = some host →
    (LineFits l → ∃ i, decode (.line l) = .ok i ∧
      step s = exec i { s with pending := rest, owner := some host }) ∧
    (¬ LineFits l → ∃ why, step s = .refused (.unrepresentable why))

/-- R85, R86: the operands of a line that fits are the operands of the operation. -/
def Obligations.LinesDecodeToTheirOperands : Prop :=
  (∀ addr cmd seg (cfg : List Nat) n (cyc : List Nat) chk,
    LineFits (.construct addr cmd seg cfg (some n) cyc chk) → cfg.length = 4 →
    ∃ v : Vector Word 4, v.toList = cfg.map (BitVec.ofNat 16) ∧
      decode (.line (.construct addr cmd seg cfg (some n) cyc chk)) =
        .ok (.construct (.ofNat 12 addr) (.ofNat 8 cmd) (.ofNat 1 seg) v (.ofNat 8 n)
          (cyc.map (BitVec.ofNat 16)) (.ofNat 1 chk))) ∧
  decode (.line .getaddr) = .ok .getaddr ∧ decode (.line .getcmd) = .ok .getcmd ∧
  decode (.line .getseg) = .ok .getseg ∧ decode (.line .getcfg) = .ok .getcfg ∧
  (∀ len haschk, len ≤ 255 → haschk ≤ 1 →
    decode (.line (.getcyc len haschk)) = .ok (.getcyc (.ofNat 8 len) (.ofNat 1 haschk))) ∧
  (∀ len, len ≤ 255 → decode (.line (.check len)) = .ok (.check (.ofNat 8 len))) ∧
  (∀ idx, idx ≤ 127 → decode (.line (.rdw idx)) = .ok (.rdw (.ofNat 7 idx))) ∧
  (∀ idx data, idx ≤ 127 → data ≤ 0xFFFF →
    decode (.line (.wrw idx data)) = .ok (.wrw (.ofNat 7 idx) (.ofNat 16 data)))

/-- R86. -/
def Obligations.PseudoFormsAbbreviateConstruct : Prop :=
  (∀ addr cmd seg cfg cyc chk,
    decode (.line (.construct addr cmd seg cfg none cyc chk)) =
      decode (.line (.construct addr cmd seg cfg (some cyc.length) cyc chk))) ∧
  (∀ addr cmd seg n cyc chk,
    decode (.line (.construct addr cmd seg [] n cyc chk)) =
      decode (.line (.construct addr cmd seg [0, 0, 0, 0] n cyc chk))) ∧
  ∀ addr chk,
    decode (.line (.idle addr chk)) = decode (.line (.construct addr 7 0 [0, 0, 0, 0] (some 0) [] chk))

/-! ### The encoder -/

/-- R101, R104, R105, R106: an accepted request completes, and FB holds the frame; the words beyond it, and
the interface's other fields, are as before. -/
def Obligations.ConstructWritesTheFrame : Prop :=
  ∀ (addr : BitVec 12) (cmd : BitVec 8) (seg : Bit) (cfg : Vector Word 4) (n : BitVec 8) (cyc : List Word)
    (chk : Bit) (s : State),
    cyc.length = min n.toNat 123 → cmd.toNat ∈ [1, 2, 3, 5, 6, 7] → 1 + 4 + n.toNat + chk.toNat ≤ 128 →
    ∃ t, exec (.construct addr cmd seg cfg n cyc chk) s = .next t ∧
      t.resp = some { status := .ok, size := some (BitVec.ofNat 8 (1 + 4 + n.toNat + chk.toNat)) } ∧
      t.fb.read 0 = some (addr ++ seg ++ cmd.extractLsb' 0 3) ∧
      (∀ k, k < 4 → t.fb.read (1 + k) = cfg.toList[k]?) ∧
      (∀ k, k < n.toNat → t.fb.read (5 + k) = cyc[k]?) ∧
      (chk = 1 → t.fb.read (5 + n.toNat) =
        some (Config.checkFn ((addr ++ seg ++ cmd.extractLsb' 0 3) :: (cfg.toList ++ cyc)))) ∧
      (∀ k, 1 + 4 + n.toNat + chk.toNat ≤ k → t.fb.read k = s.fb.read k) ∧
      t.pending = s.pending ∧ t.owner = s.owner

/-- R102, R107, R108: a command outside the recognized set, whatever `n` and `chk` are; and R107 for either
error: whenever CONSTRUCT does not answer OK, its status is one of the two, `size` is 0 and FB is as before. -/
def Obligations.ConstructRejectsUnrecognizedCommands : Prop :=
  ∀ (addr : BitVec 12) (cmd : BitVec 8) (seg : Bit) (cfg : Vector Word 4) (n : BitVec 8) (cyc : List Word)
    (chk : Bit) (s : State),
    (cyc.length = min n.toNat 123 → cmd.toNat ∉ [1, 2, 3, 5, 6, 7] →
      exec (.construct addr cmd seg cfg n cyc chk) s =
        .next { s with resp := some { status := .invalidCommand, size := some 0 } }) ∧
    ∀ (t : State) (r : Response), exec (.construct addr cmd seg cfg n cyc chk) s = .next t → t.resp = some r →
      r.status ≠ .ok →
      (r.status = .invalidCommand ∨ r.status = .oversizedPayload) ∧ r.size = some 0 ∧ t.fb = s.fb

/-- R103, R107: a frame larger than FB, which is every `n` from 124 on, and 123 with a checksum. -/
def Obligations.ConstructRejectsOversizedFrames : Prop :=
  ∀ (addr : BitVec 12) (cmd : BitVec 8) (seg : Bit) (cfg : Vector Word 4) (n : BitVec 8) (cyc : List Word)
    (chk : Bit) (s : State),
    (1 + 4 + n.toNat + chk.toNat > 128 ↔ 124 ≤ n.toNat ∨ (n.toNat = 123 ∧ chk = 1)) ∧
    (cyc.length = min n.toNat 123 → cmd.toNat ∈ [1, 2, 3, 5, 6, 7] → 1 + 4 + n.toNat + chk.toNat > 128 →
      exec (.construct addr cmd seg cfg n cyc chk) s =
        .next { s with resp := some { status := .oversizedPayload, size := some 0 } })

/-- R52: the size CONSTRUCT answers on success. -/
def Obligations.FrameSizesAreBounded : Prop :=
  ∀ (addr : BitVec 12) (cmd : BitVec 8) (seg : Bit) (cfg : Vector Word 4) (n : BitVec 8) (cyc : List Word)
    (chk : Bit) (s t : State) (r : Response),
    exec (.construct addr cmd seg cfg n cyc chk) s = .next t → t.resp = some r → r.status = .ok →
    ∃ z, r.size = some z ∧ z.toNat = 1 + 4 + n.toNat + chk.toNat ∧ z.toNat ≤ 128 ∧ 5 ≤ z.toNat ∧
      (chk = 0 → n.toNat ≤ 123) ∧ (chk = 1 → n.toNat ≤ 122 ∧ 6 ≤ z.toNat)

/-- R109: "A frame built by CONSTRUCT never has command field 0 or 4". -/
def Obligations.ConstructNeverWritesReservedCommands : Prop :=
  ∀ (addr : BitVec 12) (cmd : BitVec 8) (seg : Bit) (cfg : Vector Word 4) (n : BitVec 8) (cyc : List Word)
    (chk : Bit) (s t : State) (r : Response),
    exec (.construct addr cmd seg cfg n cyc chk) s = .next t → t.resp = some r → r.status = .ok →
    ∃ h, t.fb.read 0 = some h ∧ (h.extractLsb' 0 3).toNat = cmd.toNat ∧
      (h.extractLsb' 0 3).toNat ≠ 0 ∧ (h.extractLsb' 0 3).toNat ≠ 4

/-- R110, R151: the source's concrete scenario, from reset. -/
def Obligations.WorkedExampleBuildsAndChecks : Prop :=
  ∃ t, exec (.construct 0x00A 2 0 #v[0x1111, 0x2222, 0x3333, 0x4444] 0 [] 1) State.reset = .next t ∧
    t.resp = some { status := .ok, size := some 6 } ∧
    t.fb = [(0, 0x00A2), (1, 0x1111), (2, 0x2222), (3, 0x3333), (4, 0x4444), (5, 0xDA9A)] ∧
    chk16 [0x00A2, 0x1111, 0x2222, 0x3333, 0x4444] = 0xDA9A ∧
    exec (.check 6) t = .next { t with resp := some { status := .ok, valid := some 1 } }

/-! ### The decoder -/

/-- R120. -/
def Obligations.GetaddrReturnsTheAddressField : Prop :=
  (∀ r : Request, r.op = 0x2 → decode (.request r) = .ok .getaddr) ∧
  ∀ (s : State) (h : Word), s.fb.read 0 = some h →
    exec .getaddr s = .next { s with resp := some { status := .ok, addr := some (h.extractLsb' 4 12) } }

/-- R122, R123. -/
def Obligations.GetcmdReturnsTheCommandAndItsKind : Prop :=
  (∀ r : Request, r.op = 0x3 → decode (.request r) = .ok .getcmd) ∧
  ∀ (s : State) (h : Word), s.fb.read 0 = some h →
    ∃ rec k, exec .getcmd s = .next { s with
        resp := some { status := .ok, cmd := some (h.extractLsb' 0 3), recognized := some rec, kind := some k } } ∧
      (h.extractLsb' 0 3 = 0 → rec = 0 ∧ k = .unrecognized) ∧
      (h.extractLsb' 0 3 = 1 → rec = 1 ∧ k = .read) ∧
      (h.extractLsb' 0 3 = 2 → rec = 1 ∧ k = .write) ∧
      (h.extractLsb' 0 3 = 3 → rec = 1 ∧ k = .ack) ∧
      (h.extractLsb' 0 3 = 4 → rec = 0 ∧ k = .unrecognized) ∧
      (h.extractLsb' 0 3 = 5 → rec = 1 ∧ k = .readError) ∧
      (h.extractLsb' 0 3 = 6 → rec = 1 ∧ k = .writeError) ∧
      (h.extractLsb' 0 3 = 7 → rec = 1 ∧ k = .idle)

/-- R124. -/
def Obligations.GetsegReturnsTheFlag : Prop :=
  (∀ r : Request, r.op = 0x4 → decode (.request r) = .ok .getseg) ∧
  ∀ (s : State) (h : Word), s.fb.read 0 = some h →
    exec .getseg s = .next { s with resp := some { status := .ok, seg := some (h.extractLsb' 3 1) } }

/-- R126. -/
def Obligations.GetcfgReturnsTheConfigWords : Prop :=
  (∀ r : Request, r.op = 0x5 → decode (.request r) = .ok .getcfg) ∧
  ∀ (s : State) (c0 c1 c2 c3 : Word),
    s.fb.read 1 = some c0 → s.fb.read 2 = some c1 → s.fb.read 3 = some c2 → s.fb.read 4 = some c3 →
    exec .getcfg s =
      .next { s with resp := some { status := .ok, size := some 4, words := some [c0, c1, c2, c3] } }

/-- R128: BAD_LENGTH outside the range a frame can have, else the cyclic words. -/
def Obligations.GetcycReturnsTheCyclicWords : Prop :=
  (∀ r : Request, r.op = 0x6 → decode (.request r) = .ok (.getcyc r.len r.haschk)) ∧
  ∀ (s : State) (len : BitVec 8) (haschk : Bit),
    (len.toNat > 128 ∨ len.toNat < 5 + haschk.toNat →
      exec (.getcyc len haschk) s =
        .next { s with resp := some { status := .badLength, size := some 0, words := some [] } }) ∧
    ∀ ws : List Word, 5 + haschk.toNat ≤ len.toNat → len.toNat ≤ 128 →
      ws.length = len.toNat - 5 - haschk.toNat → (∀ k, k < ws.length → s.fb.read (5 + k) = ws[k]?) →
      exec (.getcyc len haschk) s =
        .next { s with
          resp := some { status := .ok, size := some (BitVec.ofNat 8 ws.length), words := some ws } }

/-- R130: with the words every frame has written, the four decoders without a length end with status OK and
leave FB as it is. -/
def Obligations.FixedDecodersAlwaysEndOk : Prop :=
  ∀ (s : State) (i : Instr), (∀ k, k < 5 → s.fb.written k = true) →
    i = .getaddr ∨ i = .getcmd ∨ i = .getseg ∨ i = .getcfg →
    ∃ r, exec i s = .next { s with resp := some r } ∧ r.status = .ok

/-- R111: what the decoder and CHECK answer after an accepted CONSTRUCT. -/
def Obligations.DecodersReturnWhatConstructPacked : Prop :=
  ∀ (addr : BitVec 12) (cmd : BitVec 8) (seg : Bit) (cfg : Vector Word 4) (n : BitVec 8) (cyc : List Word)
    (chk : Bit) (s t : State) (z : BitVec 8),
    exec (.construct addr cmd seg cfg n cyc chk) s = .next t → t.resp = some { status := .ok, size := some z } →
    exec .getaddr t = .next { t with resp := some { status := .ok, addr := some addr } } ∧
    (∃ c, c.toNat = cmd.toNat ∧ exec .getcmd t = .next { t with
      resp := some { status := .ok, cmd := some c, recognized := some 1, kind := some (kind cmd.toNat) } }) ∧
    exec .getseg t = .next { t with resp := some { status := .ok, seg := some seg } } ∧
    exec .getcfg t = .next { t with resp := some { status := .ok, size := some 4, words := some cfg.toList } } ∧
    (chk = 1 → exec (.check z) t = .next { t with resp := some { status := .ok, valid := some 1 } })

/-- The cyclic words come back with the frame's true size and checksum presence (R128, R204). -/
def Obligations.GetcycReturnsWhatConstructPacked : Prop :=
  ∀ (addr : BitVec 12) (cmd : BitVec 8) (seg : Bit) (cfg : Vector Word 4) (n : BitVec 8) (cyc : List Word)
    (chk : Bit) (s t : State) (z : BitVec 8),
    exec (.construct addr cmd seg cfg n cyc chk) s = .next t → t.resp = some { status := .ok, size := some z } →
    exec (.getcyc z chk) t =
      .next { t with resp := some { status := .ok, size := some n, words := some cyc } }

/-! ### The checksum -/

/-- R145, R146: BAD_LENGTH outside 6..128; else the comparison, a mismatch being `valid` = 0 with status OK. -/
def Obligations.CheckComparesTheStoredChecksum : Prop :=
  (∀ r : Request, r.op = 0x7 → decode (.request r) = .ok (.check r.len)) ∧
  ∀ (s : State) (len : BitVec 8),
    (len.toNat < 6 ∨ len.toNat > 128 →
      exec (.check len) s = .next { s with resp := some { status := .badLength, valid := some 0 } }) ∧
    ∀ (ws : List Word) (stored : Word), 6 ≤ len.toNat → len.toNat ≤ 128 → ws.length = len.toNat - 1 →
      (∀ k, k < ws.length → s.fb.read k = ws[k]?) → s.fb.read (len.toNat - 1) = some stored →
      (Config.checkFn ws = stored →
        exec (.check len) s = .next { s with resp := some { status := .ok, valid := some 1 } }) ∧
      (Config.checkFn ws ≠ stored →
        exec (.check len) s = .next { s with resp := some { status := .ok, valid := some 0 } })

/-- R147, R205: on written words CHECK answers exactly whether the words carry their checksum, frame or not. -/
def Obligations.CheckAnswersWhetherAChecksumIsCarried : Prop :=
  ∀ (s : State) (len : BitVec 8), 6 ≤ len.toNat → len.toNat ≤ 128 → FramePlaced s.fb len.toNat →
    ∃ v, exec (.check len) s = .next { s with resp := some { status := .ok, valid := some v } } ∧
      (v = 1 ↔ CarriesChecksum Config.checkFn s.fb len.toNat)

/-- R148, for every checksum function, whatever is done between that leaves FB as it is. -/
def Obligations.CheckAcceptsEveryConstructedFrame : Prop :=
  ∀ (f : List Word → Word) (addr : BitVec 12) (cmd : BitVec 8) (seg : Bit) (cfg : Vector Word 4) (n : BitVec 8)
    (cyc : List Word) (s t u : State) (z : BitVec 8),
    construct f addr cmd seg cfg n cyc 1 s = .next t → t.resp = some { status := .ok, size := some z } →
    u.fb = t.fb →
    verify f z u = .next { u with resp := some { status := .ok, valid := some 1 } }

/-- R149, for every checksum function that meets P4 of R143: after CONSTRUCT with a checksum, one changed word
makes CHECK answer `valid` = 0. -/
def Obligations.CheckRejectsOneChangedWord : Prop :=
  ∀ (f : List Word → Word), DetectsSingleWord f →
    ∀ (addr : BitVec 12) (cmd : BitVec 8) (seg : Bit) (cfg : Vector Word 4) (n : BitVec 8) (cyc : List Word)
      (s t u : State) (z : BitVec 8) (j : BitVec 7) (e : Word),
    construct f addr cmd seg cfg n cyc 1 s = .next t → t.resp = some { status := .ok, size := some z } →
    j.toNat < z.toNat → t.fb.read j.toNat ≠ some e → exec (.wrw j e) t = .next u →
    verify f z u = .next { u with resp := some { status := .ok, valid := some 0 } }

/-- R144: CHK16 meets P4. -/
def Obligations.Chk16DetectsSingleWordChanges : Prop :=
  ∀ (ws : List Word) (j : Nat) (e : Word), j < ws.length → ws[j]? ≠ some e → chk16 (ws.set j e) ≠ chk16 ws

/-- R149 for this hardware's checksum function: the three operations of the machine. -/
def Obligations.MachineRejectsOneChangedWord : Prop :=
  ∀ (addr : BitVec 12) (cmd : BitVec 8) (seg : Bit) (cfg : Vector Word 4) (n : BitVec 8) (cyc : List Word)
    (s t u : State) (z : BitVec 8) (j : BitVec 7) (e : Word),
    exec (.construct addr cmd seg cfg n cyc 1) s = .next t →
    t.resp = some { status := .ok, size := some z } → j.toNat < z.toNat → t.fb.read j.toNat ≠ some e →
    exec (.wrw j e) t = .next u →
    exec (.check z) u = .next { u with resp := some { status := .ok, valid := some 0 } }

/-- R142: the byte form, high byte first, and its check value. -/
def Obligations.Chk16IsItsByteForm : Prop :=
  (∀ ws : List Word, chk16 ws = chk16Bytes (wireBytes .highFirst ws)) ∧
  chk16Bytes [0x31, 0x32, 0x33, 0x34, 0x35, 0x36, 0x37, 0x38, 0x39] = 0x29B1

/-- Values of CHK16 from spec/95_test_vectors.md 2.4. -/
def Obligations.Chk16HasItsVectors : Prop :=
  chk16 [] = 0xFFFF ∧ chk16 [0x0000] = 0x1D0F ∧ chk16 [0x8000] = 0x0697 ∧
  chk16 [0, 0, 0, 0, 0] = 0xE139 ∧ chk16 [0xFFFF, 0xFFFF, 0xFFFF, 0xFFFF, 0xFFFF] = 0xA6E1 ∧
  chk16 [0x1233, 0x000A, 0x000B, 0x000C, 0x000D, 0x1000, 0x2000, 0x3000] = 0x157F

/-! ### The host port and the header words -/

/-- R160. -/
def Obligations.RdwReturnsTheWord : Prop :=
  (∀ r : Request, r.op = 0x8 → decode (.request r) = .ok (.rdw r.idx)) ∧
  ∀ (s : State) (idx : BitVec 7) (w : Word), s.fb.read idx.toNat = some w →
    exec (.rdw idx) s = .next { s with resp := some { status := .ok, data := some w } }

/-- R161: WRW completes in every state. -/
def Obligations.WrwWritesOneWord : Prop :=
  (∀ r : Request, r.op = 0x9 → decode (.request r) = .ok (.wrw r.idx r.data)) ∧
  ∀ (s : State) (idx : BitVec 7) (data : Word),
    ∃ t, exec (.wrw idx data) s = .next t ∧ t.resp = some { status := .ok } ∧
      t.fb.read idx.toNat = some data ∧ (∀ k, k ≠ idx.toNat → t.fb.read k = s.fb.read k) ∧
      t.pending = s.pending ∧ t.owner = s.owner ∧
      exec (.wrw idx data) t = .next t

/-- R203: "a GETADDR right after a WRW to FB[0] returns the new address", and so the other header fields. -/
def Obligations.DecodersSeeTheWordJustWritten : Prop :=
  ∀ (s t : State) (h : Word), exec (.wrw 0 h) s = .next t →
    exec .getaddr t = .next { t with resp := some { status := .ok, addr := some (h.extractLsb' 4 12) } } ∧
    exec .getseg t = .next { t with resp := some { status := .ok, seg := some (h.extractLsb' 3 1) } } ∧
    ∃ r, exec .getcmd t = .next { t with resp := some r } ∧ r.cmd = some (h.extractLsb' 0 3)

/-- A header word received with a command of R74 stands in FB[0] and nothing else changes (R162, R70; that a
table row HDR.* is the receipt of its word is the model's choice, log 7); GETCMD then answers its code and
kind. -/
def Obligations.HeaderWordsAreReceivedIntoFirstWord : Prop :=
  ∀ (addr : BitVec 12) (seg : Bit) (s : State) (i : Instr) (c : BitVec 3) (k : Kind),
    (i, c, k) ∈ [(Instr.hdrRead addr seg, 1#3, Kind.read), (.hdrWrite addr seg, 2#3, .write),
      (.hdrAck addr seg, 3#3, .ack), (.hdrReadError addr seg, 5#3, .readError),
      (.hdrWriteError addr seg, 6#3, .writeError), (.hdrIdle addr seg, 7#3, .idle)] →
    ∃ t, exec i s = .next t ∧ t.resp = some { status := .ok } ∧
      t.fb.read 0 = some (addr ++ seg ++ c) ∧ (∀ j, j ≠ 0 → t.fb.read j = s.fb.read j) ∧
      t.pending = s.pending ∧ t.owner = s.owner ∧
      exec .getcmd t = .next { t with
        resp := some { status := .ok, cmd := some c, recognized := some 1, kind := some k } }

/-- R162: receiving a frame with WRW in index order, then reading it out with RDW. -/
def Obligations.ReceivedFramesReadBack : Prop :=
  ∀ (ws : List Word) (s : State), ws.length ≤ 128 →
    ∃ rs t, performAll (receiveFrame ws) s = .next (rs, t) ∧
      (∀ k, k < ws.length → t.fb.read k = ws[k]?) ∧ (∀ k, ws.length ≤ k → t.fb.read k = s.fb.read k) ∧
      ∃ rs' t', performAll (transmitFrame ws.length) t = .next (rs', t') ∧ readOut rs' = ws ∧ t'.fb = t.fb

/-- R55, R56: whatever the byte order of the wire, both ends using the same one recover the words. That
WIRE_BYTE_ORDER is one of exactly two orders, the same for every word, is the model's reading (log 12). -/
def Obligations.WireBytesReadBack : Prop :=
  (∀ (o : Config.ByteOrder) (ws : List Word), wireWords o (wireBytes o ws) = some ws) ∧
  (∀ ws : List Word, offWire (onWire ws) = some ws) ∧
  ∀ (o : Config.ByteOrder) (ws : List Word), (wireBytes o ws).length = 2 * ws.length

/-! ### The whole machine -/

/-- R34: "An operation sets `status` and exactly the other fields its rule names". -/
def Obligations.ResponsesCarryExactlyTheirFields : Prop :=
  ∀ (i : Instr) (s t : State), exec i s = .next t →
    ∃ r, t.resp = some r ∧
      r.size.isSome = ["CONSTRUCT", "GETCFG", "GETCYC"].contains i.mnemonic ∧
      r.addr.isSome = ["GETADDR"].contains i.mnemonic ∧
      r.cmd.isSome = ["GETCMD"].contains i.mnemonic ∧
      r.recognized.isSome = ["GETCMD"].contains i.mnemonic ∧
      r.kind.isSome = ["GETCMD"].contains i.mnemonic ∧
      r.seg.isSome = ["GETSEG"].contains i.mnemonic ∧
      r.words.isSome = ["GETCFG", "GETCYC"].contains i.mnemonic ∧
      r.valid.isSome = ["CHECK"].contains i.mnemonic ∧
      r.data.isSome = ["RDW"].contains i.mnemonic

/-- R180: the codes, and which operation raises which status when. -/
def Obligations.StatusesHaveTheirCauses : Prop :=
  (Status.ok.code = 0 ∧ Status.invalidCommand.code = 1 ∧ Status.oversizedPayload.code = 2 ∧
    Status.badLength.code = 3 ∧ Status.illegalOp.code = 4) ∧
  (∀ (i : Instr) (s t : State) (r : Response), exec i s = .next t → t.resp = some r →
    (r.status = .invalidCommand ↔
      ∃ addr cmd seg cfg n cyc chk, i = .construct addr cmd seg cfg n cyc chk ∧
        cmd.toNat ∉ [1, 2, 3, 5, 6, 7]) ∧
    (r.status = .oversizedPayload ↔
      ∃ addr cmd seg cfg n cyc chk, i = .construct addr cmd seg cfg n cyc chk ∧
        cmd.toNat ∈ [1, 2, 3, 5, 6, 7] ∧ 1 + 4 + n.toNat + chk.toNat > 128) ∧
    (r.status = .badLength ↔
      (∃ len, i = .check len ∧ ¬ (6 ≤ len.toNat ∧ len.toNat ≤ 128)) ∨
      ∃ len haschk, i = .getcyc len haschk ∧ ¬ (5 + haschk.toNat ≤ len.toNat ∧ len.toNat ≤ 128)) ∧
    r.status ≠ .illegalOp) ∧
  ∀ (q : Request) (s t : State) (r : Response), perform (.request q) s = .next t → t.resp = some r →
    (r.status = .illegalOp ↔ q.op.toNat = 0 ∨ 10 ≤ q.op.toNat)

/-- R183: "A failing operation writes nothing to FB". -/
def Obligations.FailingOperationsWriteNothing : Prop :=
  ∀ (i : Instr) (s t : State) (r : Response), exec i s = .next t → t.resp = some r → r.status ≠ .ok →
    t.fb = s.fb ∧ (∀ z, r.size = some z → z = 0) ∧ (∀ ws, r.words = some ws → ws = []) ∧
      ∀ v, r.valid = some v → v = 0

/-- R36: the frame of every operation. It changes only the response and the words it writes; the receipt of a
header word counts as WRW of FB[0] (log 7). -/
def Obligations.OperationsWriteOnlyTheirWords : Prop :=
  ∀ (i : Instr) (s t : State), exec i s = .next t →
    (∀ k, ¬ Writes i k → t.fb.read k = s.fb.read k) ∧
    ((∀ k, ¬ Writes i k) → t.fb = s.fb) ∧
    t.pending = s.pending ∧ t.owner = s.owner

/-- R201: an operation is a fault exactly where a word it reads is unwritten; a word is written once an
operation that writes it has completed (the receipt of a header word counts as WRW of FB[0], log 7). -/
def Obligations.FaultsAreUnwrittenReads : Prop :=
  (∀ k, State.reset.fb.written k = false) ∧
  ∀ (i : Instr) (s : State),
    ((∃ f, exec i s = .fault f) ↔ ∃ k, Reads i k ∧ s.fb.read k = none) ∧
    ∀ (t : State) (k : Nat), exec i s = .next t →
      (t.fb.written k = true ↔ s.fb.written k = true ∨ Writes i k)

/-- R12: "every index they touch is below 128": no step of any state leaves FB. A fault of a step names an
unwritten word below 128, never the model's guard `outsideBuffer` (log 14; that the fault names the word is
log 16). A completed step leaves every index from 128 on as it was, or is a reset, after which nothing reads.
And what stands at an index from 128 on makes no difference to a step. -/
def Obligations.StepsNeverLeaveTheBuffer : Prop :=
  (∀ (s : State) (f : Fault), step s = .fault f → ∃ k, k < 128 ∧ f = .unwrittenWord k ∧ s.fb.read k = none) ∧
  (∀ s t : State, step s = .next t →
    (∀ k, 128 ≤ k → t.fb.read k = s.fb.read k) ∨
      (∃ rest, s.pending = .reset :: rest) ∧ ∀ k, t.fb.read k = none) ∧
  ∀ (s : State) (fb : Memory), (∀ k, k < 128 → fb.read k = s.fb.read k) →
    (∀ t, step s = .next t → ∃ t', step { s with fb := fb } = .next t' ∧ t'.resp = t.resp ∧
      t'.pending = t.pending ∧ t'.owner = t.owner ∧ ∀ k, k < 128 → t'.fb.read k = t.fb.read k) ∧
    (∀ f, step s = .fault f → step { s with fb := fb } = .fault f) ∧
    ∀ r, step s = .refused r → step { s with fb := fb } = .refused r

/-- R35, R54: the response and the writes depend on nothing but the request and the words read. Which word a
fault names is log 16, and the only refusal of an operation is that of log 13. -/
def Obligations.OperationsSeeOnlyTheWordsTheyRead : Prop :=
  ∀ (i : Instr) (s s' : State), (∀ k, Reads i k → s.fb.read k = s'.fb.read k) →
    (∀ t, exec i s = .next t → ∃ t', exec i s' = .next t' ∧ t'.resp = t.resp ∧
      ∀ k, Writes i k → t'.fb.read k = t.fb.read k) ∧
    (∀ f, exec i s = .fault f → exec i s' = .fault f) ∧
    ∀ r, exec i s = .refused r → exec i s' = .refused r

/-- R58: repeating a request gives the same response and leaves FB the same. -/
def Obligations.OperationsAreIdempotent : Prop :=
  ∀ (i : Instr) (s t : State), s.fb.wf → exec i s = .next t → exec i t = .next t

/-- What is presented and decodes is performed as one step, on the state with it taken off the stream and the
instance claimed by its host (R7, R60, R80; the stream and the claim are the model's, log 4 and log 5). -/
def Obligations.StepPerformsTheDecodedInstruction : Prop :=
  ∀ (s : State) (host : Nat) (p : Packet) (rest : List Event),
    s.pending = .present host p :: rest → s.owner = none ∨ s.owner = some host →
    step s = perform p { s with pending := rest, owner := some host } ∧
    ∀ i, decode p = .ok i → step s = exec i { s with pending := rest, owner := some host }

/-- A word of the opcode table that decodes, placed next, is what the next step runs (log 4, log 9). -/
def Obligations.PlacedTableWordsRunNext : Prop :=
  ∀ (s : State) (nbits w : Nat) (i : Instr), decodeTableWord nbits w = some i →
    step (s.withFetchWord nbits w) = exec i { s with owner := some (s.owner.getD 0) }

/-- With nothing presented a step changes nothing (the model's choice, log 4). -/
def Obligations.StepsWithNothingPresentedChangeNothing : Prop :=
  ∀ s : State, s.pending = [] → step s = .next s

/-- R81: a reserved select code writes nothing and answers ILLEGAL_OP and no other field, and executes as
nothing else. -/
def Obligations.ReservedSelectCodesAnswerIllegalOp : Prop :=
  ∀ (s : State) (r : Request), r.op.toNat = 0 ∨ 10 ≤ r.op.toNat →
    (∀ i, decode (.request r) ≠ .ok i) ∧
    perform (.request r) s = .next { s with resp := some { status := .illegalOp } }

/-- A header word with a reserved command is received like any word, and GETCMD reports it as unrecognized
(R161, R122; that it is received at all is the model's choice, log 8). -/
def Obligations.ReservedHeadersAreReceivedLikeAnyWord : Prop :=
  ∀ (s : State) (h : Word) (c : BitVec 3), h.extractLsb' 0 3 = c → c = 0 ∨ c = 4 →
    ∃ t, perform (.header h) s = .next t ∧ t.resp = some { status := .ok } ∧ t.fb.read 0 = some h ∧
      (∀ k, k ≠ 0 → t.fb.read k = s.fb.read k) ∧
      exec .getcmd t = .next { t with
        resp := some { status := .ok, cmd := some c, recognized := some 0, kind := some .unrecognized } }

/-- R60: requests are taken in the order presented, one a step, each with its response: whatever response
stood before the step, the one after it is this request's. The stream is the model's choice (log 4), and so is
the claim of the instance by its host (log 5). -/
def Obligations.StepsTakeRequestsInOrder : Prop :=
  ∀ (s t : State) (host : Nat) (p : Packet) (rest : List Event),
    s.pending = .present host p :: rest → step s = .next t →
    t.pending = rest ∧ t.owner = some host ∧ t.resp.isSome = true ∧
      ∀ q : Option Response, step { s with resp := q } = .next t

/-- R63, R191 (3): a request of a second host has no meaning; and the only other refusal of a step is a line
that cannot be represented (log 5, log 10). -/
def Obligations.RefusalsAreTheNamedOnes : Prop :=
  (∀ (s : State) (h h' : Nat) (p : Packet) (rest : List Event),
    s.pending = .present h p :: rest → s.owner = some h' → h ≠ h' → step s = .refused .secondHost) ∧
  ∀ (s : State) (r : Refusal), step s = .refused r →
    (r = .secondHost ∧ ∃ h h' p rest, s.pending = .present h p :: rest ∧ s.owner = some h' ∧ h ≠ h') ∨
    ∃ why h l rest, r = .unrepresentable why ∧ s.pending = .present h (.line l) :: rest ∧ ¬ LineFits l

/-- R200, R201: after reset every word of FB is unwritten, and the first request presented is performed; what
stays presented over a reset is the model's choice (log 6). -/
def Obligations.ResetLeavesEveryWordUnwritten : Prop :=
  (∀ k, State.reset.fb.read k = none) ∧
  ∀ (s : State) (rest : List Event), s.pending = .reset :: rest →
    step s = .next { State.reset with pending := rest }

/-- The reset state meets the invariant (R38). -/
def Obligations.ResetStateMeetsTheInvariant : Prop := State.reset.Inv

/-- Every step keeps the invariant: FB in canonical form within 128 words, and every response one R34 allows. -/
def Obligations.StepsKeepTheInvariant : Prop :=
  ∀ s t : State, s.Inv → step s = .next t → t.Inv

/-- A host that keeps R202 to R207, from a state where the frame it knows of stands in FB, never meets a fault
or a refusal. -/
def Obligations.HostsKeepingTheirObligationsNeverFault : Prop :=
  ∀ (as : List HostAction) (v : Option HostView) (s : State),
    (∀ f, v = some f → f.Legal ∧ FramePlaced s.fb f.size) → KeepsObligations v s as →
    ∃ t, runHost as s = .next t

/-- R202 to R208, as one step: with the frame its host knows of standing in FB, a step of a lawful request
completes, and the frame the host knows of after it stands in FB (the stream is log 4, the claim log 5). -/
def Obligations.LawfulStepsKeepTheKnownFrame : Prop :=
  ∀ (v : Option HostView) (s : State) (host : Nat) (p : Packet) (rest : List Event) (i : Instr),
    (∀ f, v = some f → f.Legal ∧ FramePlaced s.fb f.size) →
    s.pending = .present host p :: rest → s.owner = none ∨ s.owner = some host →
    decode p = .ok i → Lawful v i →
    ∃ t, step s = .next t ∧ ∀ f, viewAfter v i t = some f → f.Legal ∧ FramePlaced t.fb f.size
end

