-- ==== Sys2Proof/Laws/Memory.lean ====
section
/-! SUPPORT. The laws of the frame buffer: read after write, the canonical form, and one spec lemma per shared
read and write. -/

namespace Sys2Proof

namespace Memory

/-- A word reads as what was last written to it, and a write leaves every other word alone. -/
theorem read_write (m : Memory) (i : Nat) (v : Word) (k : Nat) :
    (m.write i v).read k = if k = i then some v else m.read k := by
  induction m with
  | nil => simp [write, read]
  | cons c m ih =>
    obtain ⟨j, w⟩ := c
    unfold write
    split
    · simp [read]
    · split
      · rename_i h; subst h; simp only [read]; split <;> rfl
      · simp only [read, ih]
        by_cases hj : k = j
        · subst hj; simp; omega
        · simp [hj]

@[simp] theorem read_write_same (m : Memory) (i : Nat) (v : Word) : (m.write i v).read i = some v := by
  simp [read_write]

theorem read_write_ne (m : Memory) {i k : Nat} (v : Word) (h : k ≠ i) : (m.write i v).read k = m.read k := by
  simp [read_write, h]

/-- Reading a word that a list of writes covers gives the list's word; any other word is as before. -/
theorem read_writeList (m : Memory) (i : Nat) (ws : List Word) (k : Nat) :
    (m.writeList i ws).read k = if i ≤ k ∧ k < i + ws.length then ws[k - i]? else m.read k := by
  induction ws generalizing m i with
  | nil => simp [writeList]
  | cons v vs ih =>
    rw [writeList, ih, read_write]
    simp only [List.length_cons]
    rcases Nat.lt_trichotomy k i with h | h | h
    · rw [if_neg (by omega), if_neg (by omega), if_neg (by omega)]
    · subst h; simp
    · by_cases h2 : k < i + (vs.length + 1)
      · rw [if_pos (by omega), if_pos (by omega)]
        obtain ⟨d, rfl⟩ : ∃ d, k = i + d + 1 := ⟨k - i - 1, by omega⟩
        rw [show i + d + 1 - (i + 1) = d by omega, show i + d + 1 - i = d + 1 by omega]
        rfl
      · rw [if_neg (by omega), if_neg (by omega), if_neg (by omega)]

theorem read_writeList_inside (m : Memory) (i : Nat) (ws : List Word) {k : Nat} (h : k < ws.length) :
    (m.writeList i ws).read (i + k) = some ws[k] := by
  rw [read_writeList, if_pos (by omega), Nat.add_sub_cancel_left, List.getElem?_eq_getElem h]

theorem read_writeList_outside (m : Memory) {i k : Nat} (ws : List Word) (h : k < i ∨ i + ws.length ≤ k) :
    (m.writeList i ws).read k = m.read k := by
  rw [read_writeList, if_neg (by omega)]

/-- Writing two lists one after the other is writing them joined. -/
theorem writeList_append (m : Memory) (i : Nat) (xs ys : List Word) :
    m.writeList i (xs ++ ys) = (m.writeList i xs).writeList (i + xs.length) ys := by
  induction xs generalizing m i with
  | nil => simp [writeList]
  | cons x xs ih => simp only [List.cons_append, writeList, ih, List.length_cons]; congr 1; omega

/-- The indexes of a memory after a write: the written one, and those there before. -/
theorem mem_write {m : Memory} {i : Nat} {v : Word} {c : Nat × Word} (h : c ∈ m.write i v) :
    c = (i, v) ∨ c ∈ m := by
  induction m with
  | nil => simpa [write] using h
  | cons a m ih =>
    obtain ⟨j, w⟩ := a
    unfold write at h
    split at h
    · simpa using h
    · split at h
      · rcases List.mem_cons.1 h with h | h
        · exact .inl h
        · exact .inr (List.mem_cons_of_mem _ h)
      · rcases List.mem_cons.1 h with h | h
        · exact .inr (h ▸ List.mem_cons_self)
        · exact (ih h).imp_right (List.mem_cons_of_mem _)

/-- A write inside FB keeps the canonical form. -/
theorem write_wf {m : Memory} (h : m.wf) {i : Nat} (hi : i < Config.capacity) (v : Word) : (m.write i v).wf := by
  refine ⟨?_, fun c hc => (mem_write hc).elim (fun e => e ▸ hi) (h.2 c)⟩
  have hp := h.1
  clear h
  induction m with
  | nil => simp [write]
  | cons a m ih =>
    obtain ⟨j, w⟩ := a
    obtain ⟨hj, hm⟩ := List.pairwise_cons.1 hp
    unfold write
    split
    · rename_i hlt
      refine List.pairwise_cons.2 ⟨fun c hc => ?_, hp⟩
      rcases List.mem_cons.1 hc with rfl | hc
      · exact hlt
      · exact Nat.lt_trans hlt (hj c hc)
    · split
      · rename_i heq
        exact List.pairwise_cons.2 ⟨fun c hc => by simpa [heq] using hj c hc, hm⟩
      · rename_i hge hne
        refine List.pairwise_cons.2 ⟨fun c hc => ?_, ih hm⟩
        rcases mem_write hc with rfl | hc
        · simp at *; omega
        · exact hj c hc

theorem writeList_wf {m : Memory} (h : m.wf) {i : Nat} {ws : List Word} (hi : i + ws.length ≤ Config.capacity) :
    (m.writeList i ws).wf := by
  induction ws generalizing m i with
  | nil => exact h
  | cons v vs ih =>
    simp only [List.length_cons] at hi
    exact ih (write_wf h (by simp at *; omega) v) (by simp at *; omega)

/-- A word with an index below every listed one is unwritten. -/
theorem read_eq_none_of_lt {m : Memory} {i : Nat} (h : ∀ c ∈ m, i < c.1) : m.read i = none := by
  induction m with
  | nil => rfl
  | cons a m ih =>
    have := h a List.mem_cons_self
    rw [read, if_neg (by omega)]
    exact ih fun c hc => h c (List.mem_cons_of_mem _ hc)

/-- A read that gives a word gives a listed one. -/
theorem mem_of_read {m : Memory} {i : Nat} {v : Word} (h : m.read i = some v) : (i, v) ∈ m := by
  induction m with
  | nil => simp [read] at h
  | cons a m ih =>
    obtain ⟨j, w⟩ := a
    rw [read] at h
    split at h
    · rename_i he; subst he; simp only [Option.some.injEq] at h; subst h; exact List.mem_cons_self
    · exact List.mem_cons_of_mem _ (ih h)

/-- In canonical form nothing beyond index 127 is listed. -/
theorem read_eq_none_of_capacity {m : Memory} (h : m.wf) {i : Nat} (hi : Config.capacity ≤ i) :
    m.read i = none := by
  cases hr : m.read i with
  | none => rfl
  | some v => exact absurd (h.2 _ (mem_of_read hr)) (by simp at *; omega)

/-- Two memories in canonical form that read alike are the same data. -/
theorem wf_ext {m m' : Memory} (h : m.wf) (h' : m'.wf) (he : ∀ i, m.read i = m'.read i) : m = m' := by
  obtain ⟨hp, -⟩ := h
  obtain ⟨hp', -⟩ := h'
  induction m generalizing m' with
  | nil =>
    cases m' with
    | nil => rfl
    | cons a m' => have := he a.1; simp [read] at this
  | cons a m ih =>
    cases m' with
    | nil => have := he a.1; simp [read] at this
    | cons a' m' =>
      obtain ⟨j, w⟩ := a
      obtain ⟨j', w'⟩ := a'
      obtain ⟨hj, hm⟩ := List.pairwise_cons.1 hp
      obtain ⟨hj', hm'⟩ := List.pairwise_cons.1 hp'
      have hjj : j = j' := by
        rcases Nat.lt_trichotomy j j' with hlt | heq | hlt
        · have h1 := he j
          rw [read, if_pos rfl, read_eq_none_of_lt] at h1
          · cases h1
          · intro c hc
            rcases List.mem_cons.1 hc with rfl | hc
            · exact hlt
            · exact Nat.lt_trans hlt (hj' c hc)
        · exact heq
        · have h1 := he j'
          rw [read_eq_none_of_lt, read, if_pos rfl] at h1
          · cases h1
          · intro c hc
            rcases List.mem_cons.1 hc with rfl | hc
            · exact hlt
            · exact Nat.lt_trans hlt (hj c hc)
      subst hjj
      have hww := he j
      simp only [read, if_true, Option.some.injEq] at hww
      subst hww
      congr 1
      refine ih (fun i => ?_) hm hm'
      have h1 := he i
      simp only [read] at h1
      by_cases hi : i = j
      · subst hi
        rw [read_eq_none_of_lt hj, read_eq_none_of_lt hj']
      · simpa [hi] using h1

/-- Writing a word twice is writing it once. -/
theorem write_write_same (m : Memory) (i : Nat) (v v' : Word) : (m.write i v).write i v' = m.write i v' := by
  induction m with
  | nil => simp [write]
  | cons a m ih =>
    obtain ⟨j, w⟩ := a
    simp only [write]
    split
    · simp [write]
    · split
      · simp [write]
      · rename_i h1 h2; simp [write, h1, h2, ih]

end Memory

namespace Machine

/-- MemRead answers `ws` exactly where FB[i..i+n-1] are written, inside FB, and `ws` are those words (R12). -/
theorem memRead_ok_iff (fb : Memory) (i n : Nat) (ws : List Word) :
    memRead fb i n = .ok ws ↔
      (n = 0 ∨ i + n ≤ Config.capacity) ∧ ws.length = n ∧ ∀ k, k < n → fb.read (i + k) = ws[k]? := by
  induction n generalizing i ws with
  | zero =>
    constructor
    · intro h; simp [memRead] at h; subst h; simp
    · rintro ⟨-, h, -⟩; rw [List.length_eq_zero_iff.1 h]; rfl
  | succ n ih =>
    rw [memRead]
    constructor
    · intro h
      split at h
      · rename_i hi
        split at h
        · cases h
        · rename_i w hw
          split at h
          · rename_i vs hvs
            simp only [Except.ok.injEq] at h
            subst h
            obtain ⟨h1, h2, h3⟩ := (ih (i + 1) vs).1 hvs
            refine ⟨.inr (by simp at *; omega), by simp [h2], fun k hk => ?_⟩
            cases k with
            | zero => simpa using hw
            | succ k =>
              have := h3 k (by omega)
              rw [show i + (k + 1) = i + 1 + k by omega]
              simpa using this
          · cases h
      · cases h
    · rintro ⟨h1, h2, h3⟩
      cases ws with
      | nil => simp at h2
      | cons w vs =>
        have hi : i < Config.capacity := by simp at *; omega
        have hw : fb.read i = some w := by simpa using h3 0 (by omega)
        have hvs : memRead fb (i + 1) n = .ok vs := (ih (i + 1) vs).2
          ⟨.inr (by simp at *; omega), by simpa using h2, fun k hk => by
            have := h3 (k + 1) (by omega)
            rw [show i + (k + 1) = i + 1 + k by omega] at this
            simpa using this⟩
        simp [hi, hw, hvs]

/-- MemRead inside FB stops only on an unwritten word, and names the first one (R201; log 16). -/
theorem memRead_error_iff (fb : Memory) (i n : Nat) (hn : i + n ≤ Config.capacity) (f : Fault) :
    memRead fb i n = .error f ↔
      ∃ k, k < n ∧ f = .unwrittenWord (i + k) ∧ fb.read (i + k) = none ∧
        ∀ j, j < k → fb.written (i + j) = true := by
  induction n generalizing i with
  | zero => simp [memRead]
  | succ n ih =>
    have hi : i < Config.capacity := by simp at *; omega
    rw [memRead, if_pos hi]
    cases hr : fb.read i with
    | none =>
      simp only [Except.error.injEq]
      constructor
      · rintro rfl; exact ⟨0, by omega, rfl, hr, by simp⟩
      · rintro ⟨k, hk, rfl, hk2, hk3⟩
        cases k with
        | zero => rfl
        | succ k => have := hk3 0 (by omega); simp [Memory.written, hr] at this
    | some w =>
      refine Iff.trans (b := memRead fb (i + 1) n = .error f)
        (by cases memRead fb (i + 1) n <;> simp) ?_
      rw [ih (i + 1) (by simp at *; omega)]
      constructor
      · rintro ⟨k, hk, rfl, hk2, hk3⟩
        refine ⟨k + 1, by omega, by congr 1; omega, by rw [← hk2]; congr 1; omega, fun j hj => ?_⟩
        cases j with
        | zero => simp [Memory.written, hr]
        | succ j => rw [show i + (j + 1) = i + 1 + j by omega]; exact hk3 j (by omega)
      · rintro ⟨k, hk, rfl, hk2, hk3⟩
        cases k with
        | zero => simp [hr] at hk2
        | succ k =>
          refine ⟨k, by omega, by congr 1; omega, by rw [← hk2]; congr 1; omega, fun j hj => ?_⟩
          have := hk3 (j + 1) (by omega)
          rwa [show i + (j + 1) = i + 1 + j by omega] at this

/-- MemRead of written words inside FB completes. -/
theorem memRead_of_written {fb : Memory} {i n : Nat} (hn : i + n ≤ Config.capacity)
    (h : ∀ k, k < n → fb.written (i + k) = true) : ∃ ws, memRead fb i n = .ok ws := by
  cases hr : memRead fb i n with
  | ok ws => exact ⟨ws, rfl⟩
  | error f =>
    obtain ⟨k, hk, -, hk2, -⟩ := (memRead_error_iff fb i n hn f).1 hr
    have := h k hk
    simp [Memory.written, hk2] at this

/-- MemRead sees only the words it reads. -/
theorem memRead_congr {fb fb' : Memory} {i n : Nat} (h : ∀ k, k < n → fb.read (i + k) = fb'.read (i + k)) :
    memRead fb i n = memRead fb' i n := by
  induction n generalizing i with
  | zero => rfl
  | succ n ih =>
    have h0 : fb.read i = fb'.read i := by simpa using h 0 (by omega)
    have h1 : memRead fb (i + 1) n = memRead fb' (i + 1) n := ih fun k hk => by
      have := h (k + 1) (by omega)
      rwa [show i + (k + 1) = i + 1 + k by omega] at this
    simp only [memRead, h0, h1]

/-- MemRead of what a list of writes just wrote is that list. -/
theorem memRead_writeList (fb : Memory) (i : Nat) (ws : List Word) (h : i + ws.length ≤ Config.capacity) :
    memRead (fb.writeList i ws) i ws.length = .ok ws :=
  (memRead_ok_iff _ _ _ _).2 ⟨.inr h, rfl, fun k hk => by
    rw [Memory.read_writeList_inside _ _ _ hk, List.getElem?_eq_getElem hk]⟩

/-- MemWrite inside FB completes (R12). -/
theorem memWrite_inside {fb : Memory} {i : Nat} {ws : List Word} (h : i + ws.length ≤ Config.capacity) :
    memWrite fb i ws = .ok (fb.writeList i ws) := by
  unfold memWrite; rw [if_pos h]

/-- MemWrite keeps the canonical form. -/
theorem memWrite_wf {fb fb' : Memory} {i : Nat} {ws : List Word} (hw : fb.wf) (h : memWrite fb i ws = .ok fb') :
    fb'.wf := by
  unfold memWrite at h
  split at h
  · rename_i hi; simp only [Except.ok.injEq] at h; subst h; exact Memory.writeList_wf hw hi
  · cases h

/-- What a continued read does where it answers a next state. -/
theorem readThen_next {s t : State} {i n : Nat} {k : List Word → Host.Outcome State Fault Refusal}
    (h : readThen s i n k = .next t) : ∃ ws, memRead s.fb i n = .ok ws ∧ k ws = .next t := by
  unfold readThen at h
  split at h
  · rename_i ws hws; exact ⟨ws, hws, h⟩
  · cases h

/-- What a continued read of one word does where it answers a next state. -/
theorem readWordThen_next {s t : State} {i : Nat} {k : Word → Host.Outcome State Fault Refusal}
    (h : readWordThen s i k = .next t) : ∃ w, s.fb.read i = some w ∧ k w = .next t := by
  unfold readWordThen at h
  split at h
  · split at h
    · rename_i w hw; exact ⟨w, hw, h⟩
    · cases h
  · cases h

/-- A continued read of a written word goes on with it. -/
theorem readWordThen_some {s : State} {i : Nat} {w : Word} (k : Word → Host.Outcome State Fault Refusal)
    (hi : i < Config.capacity) (h : s.fb.read i = some w) : readWordThen s i k = k w := by
  unfold readWordThen; rw [if_pos hi, h]

/-- A continued read of an unwritten word is a fault (R201). -/
theorem readWordThen_none {s : State} {i : Nat} (k : Word → Host.Outcome State Fault Refusal)
    (hi : i < Config.capacity) (h : s.fb.read i = none) : readWordThen s i k = .fault (.unwrittenWord i) := by
  unfold readWordThen; rw [if_pos hi, h]

/-- Storing one word inside FB: the new FB, status OK (R161). -/
theorem storeWord_inside {i : Nat} (v : Word) (s : State) (hi : i < Config.capacity) :
    storeWord i v s = .next { s with fb := s.fb.write i v, resp := some { status := .ok } } := by
  have : i + [v].length ≤ Config.capacity := by simp at *; omega
  simp [storeWord, memWrite_inside this, respond, Memory.writeList]

end Machine

end Sys2Proof
end

