-- ==== Sys2Proof/Laws/State.lean ====
section
/-! SUPPORT. One lemma per field per update of the state, and the shared endings of an operation. -/

namespace Sys2Proof.Machine

variable (s : State) (m : Memory) (r : Option Response) (p : List Event) (o : Option Nat)

@[simp] theorem State.set_fb_fb : ({ s with fb := m } : State).fb = m := rfl
@[simp] theorem State.set_fb_resp : ({ s with fb := m } : State).resp = s.resp := rfl
@[simp] theorem State.set_fb_pending : ({ s with fb := m } : State).pending = s.pending := rfl
@[simp] theorem State.set_fb_owner : ({ s with fb := m } : State).owner = s.owner := rfl
@[simp] theorem State.set_resp_fb : ({ s with resp := r } : State).fb = s.fb := rfl
@[simp] theorem State.set_resp_resp : ({ s with resp := r } : State).resp = r := rfl
@[simp] theorem State.set_resp_pending : ({ s with resp := r } : State).pending = s.pending := rfl
@[simp] theorem State.set_resp_owner : ({ s with resp := r } : State).owner = s.owner := rfl
@[simp] theorem State.set_pending_fb : ({ s with pending := p } : State).fb = s.fb := rfl
@[simp] theorem State.set_pending_resp : ({ s with pending := p } : State).resp = s.resp := rfl
@[simp] theorem State.set_pending_pending : ({ s with pending := p } : State).pending = p := rfl
@[simp] theorem State.set_pending_owner : ({ s with pending := p } : State).owner = s.owner := rfl
@[simp] theorem State.set_owner_fb : ({ s with owner := o } : State).fb = s.fb := rfl
@[simp] theorem State.set_owner_resp : ({ s with owner := o } : State).resp = s.resp := rfl
@[simp] theorem State.set_owner_pending : ({ s with owner := o } : State).pending = s.pending := rfl
@[simp] theorem State.set_owner_owner : ({ s with owner := o } : State).owner = o := rfl

@[simp] theorem State.reset_fb : State.reset.fb = [] := rfl
@[simp] theorem State.reset_resp : State.reset.resp = none := rfl
@[simp] theorem State.reset_pending : State.reset.pending = [] := rfl
@[simp] theorem State.reset_owner : State.reset.owner = none := rfl

@[simp] theorem takeReset_fb : (takeReset s).fb = [] := rfl
@[simp] theorem takeReset_resp : (takeReset s).resp = none := rfl
@[simp] theorem takeReset_pending : (takeReset s).pending = s.pending := rfl
@[simp] theorem takeReset_owner : (takeReset s).owner = none := rfl

variable {s m r p o}

/-- An operation that ends with a response changes only the response. -/
theorem respond_next {q : Response} {t : State} (h : respond q s = .next t) :
    t = { s with resp := some q } := by
  simpa [respond] using h.symm

/-- `raise` is a response with the status it names and the fields its rule sets (R182). -/
theorem raise_next {st : Status} {q : Response} {t : State} (h : raise st q s = .next t) :
    t = { s with resp := some { q with status := st } } :=
  respond_next h

/-- Claiming an instance changes only its owner, and only from nobody to the claimer (R63). -/
theorem claim_some {host : Nat} {t : State} (h : claim host s = some t) :
    t = { s with owner := some host } ∧ (s.owner = none ∨ s.owner = some host) := by
  cases s with
  | mk fb resp pending owner =>
    cases owner with
    | none => exact ⟨by simpa [claim] using h.symm, .inl rfl⟩
    | some k =>
      by_cases hk : k = host
      · subst hk; exact ⟨by simpa [claim] using h.symm, .inr rfl⟩
      · simp [claim, hk] at h

/-- A step takes the oldest event off the stream and handles it. -/
theorem step_pending {ev : Event} {rest : List Event} (h : s.pending = ev :: rest) :
    step s = handle ev { s with pending := rest } := by
  simp [step, h]

/-- With nothing presented a step changes nothing. -/
theorem step_idle (h : s.pending = []) : step s = .next s := by
  simp [step, h]

end Sys2Proof.Machine
end

