-- ==== Sys2Proof/Laws/Encoder.lean ====
section
/-! SUPPORT. What CONSTRUCT writes, in one list of words, and everything CONSTRUCT can do. -/

namespace Sys2Proof.Machine

/-- The words of a frame, checksum word included where `chk` = 1 (spec/20_memory.md R51). -/
def frameWords (checkFn : List Word → Word) (header : Word) (cfg cyc : List Word) (chk : Bit) : List Word :=
  let body := header :: (cfg ++ cyc)
  if chk = 1 then body ++ [checkFn body] else body

theorem bit_cases (b : Bit) : b = 0 ∨ b = 1 := by
  revert b; decide

theorem frameWords_length (f : List Word → Word) (h : Word) (cfg cyc : List Word) (chk : Bit) :
    (frameWords f h cfg cyc chk).length = 1 + cfg.length + cyc.length + chk.toNat := by
  rcases bit_cases chk with rfl | rfl <;> simp [frameWords] <;> omega

/-- Within the capacity, CONSTRUCT's writes are one list of words from FB[0] on (R101, R104, R105). -/
theorem buildFrame_eq (f : List Word → Word) (h : Word) {cfg cyc : List Word} {chk : Bit} (fb : Memory)
    (h4 : cfg.length = 4) (hc : 5 + cyc.length + chk.toNat ≤ Config.capacity) :
    buildFrame f h cfg cyc chk fb =
      .ok (5 + cyc.length + chk.toNat, fb.writeList 0 (frameWords f h cfg cyc chk)) := by
  have hbody : ((fb.writeList 0 [h]).writeList 1 cfg).writeList 5 cyc = fb.writeList 0 (h :: (cfg ++ cyc)) := by
    rw [show h :: (cfg ++ cyc) = ([h] ++ cfg) ++ cyc by simp, Memory.writeList_append, Memory.writeList_append]
    simp [h4]
  have hlen : (h :: (cfg ++ cyc)).length = 5 + cyc.length := by simp [h4]; omega
  simp only [Config.capacity] at hc
  have w0 : memWrite fb 0 [h] = .ok (fb.writeList 0 [h]) := memWrite_inside (by simp)
  have w1 : memWrite (fb.writeList 0 [h]) 1 cfg = .ok ((fb.writeList 0 [h]).writeList 1 cfg) :=
    memWrite_inside (by simp [h4])
  have w2 : memWrite ((fb.writeList 0 [h]).writeList 1 cfg) 5 cyc = .ok (fb.writeList 0 (h :: (cfg ++ cyc))) := by
    rw [memWrite_inside (by simp; omega), hbody]
  simp only [buildFrame, Config.configBase, Config.cyclicBase, w0, w1, w2]
  rcases bit_cases chk with rfl | rfl
  · simp [frameWords]
  · have hr : memRead (fb.writeList 0 (h :: (cfg ++ cyc))) 0 (5 + cyc.length) = .ok (h :: (cfg ++ cyc)) := by
      rw [← hlen]; exact memRead_writeList _ _ _ (by simp only [hlen, Config.capacity]; omega)
    have hm : memWrite (fb.writeList 0 (h :: (cfg ++ cyc))) (5 + cyc.length) [f (h :: (cfg ++ cyc))] =
        .ok (fb.writeList 0 (frameWords f h cfg cyc 1)) := by
      rw [show (1 : Bit).toNat = 1 from rfl] at hc
      rw [memWrite_inside (by simp only [List.length_singleton, Config.capacity]; omega)]
      simp only [frameWords, if_true, Memory.writeList_append, Nat.zero_add, hlen]
    simp only [if_true, hr, hm]
    rfl

variable {f : List Word → Word} {addr : BitVec 12} {cmd : BitVec 8} {seg : Bit} {cfg : Vector Word 4}
  {n : BitVec 8} {cyc : List Word} {chk : Bit} {s t : State}

/-- A request whose cyclic list has the wrong length cannot be represented (R85, R191 (3)). -/
theorem construct_refused (h : cyc.length ≠ cyclicWordsRead n) :
    construct f addr cmd seg cfg n cyc chk s = .refused (.unrepresentable .cyclicListLength) := by
  unfold construct; rw [if_pos h]

/-- A command outside the recognized set (R102, R107). -/
theorem construct_invalid (h : cyc.length = cyclicWordsRead n) (hr : recognized cmd.toNat = false) :
    construct f addr cmd seg cfg n cyc chk s =
      .next { s with resp := some { status := .invalidCommand, size := some 0 } } := by
  unfold construct; rw [if_neg (by simpa using h), if_pos hr]; rfl

/-- A frame larger than FB (R103, R107). -/
theorem construct_oversized (h : cyc.length = cyclicWordsRead n) (hr : recognized cmd.toNat = true)
    (hs : frameSize n chk > Config.capacity) :
    construct f addr cmd seg cfg n cyc chk s =
      .next { s with resp := some { status := .oversizedPayload, size := some 0 } } := by
  unfold construct; rw [if_neg (by simpa using h), if_neg (by simp [hr]), if_pos hs]; rfl

/-- In an accepted request the cyclic list has `n` words. -/
theorem cyclic_length_of_fits (h : cyc.length = cyclicWordsRead n) (hs : frameSize n chk ≤ Config.capacity) :
    cyc.length = n.toNat := by
  simp [frameSize, cyclicWordsRead] at *; omega

/-- An accepted request (R101, R104, R106). -/
theorem construct_accepted (h : cyc.length = cyclicWordsRead n) (hr : recognized cmd.toNat = true)
    (hs : frameSize n chk ≤ Config.capacity) :
    construct f addr cmd seg cfg n cyc chk s =
      .next { s with
        fb := s.fb.writeList 0 (frameWords f (packHeader addr seg (cmdLow cmd)) cfg.toList cyc chk)
        resp := some { status := .ok, size := some (BitVec.ofNat 8 (frameSize n chk)) } } := by
  have hl := cyclic_length_of_fits h hs
  have hz : 5 + cyc.length + chk.toNat = frameSize n chk := by simp [frameSize, hl]
  unfold construct
  rw [if_neg (by simpa using h), if_neg (by simp [hr]), if_neg (by omega),
    buildFrame_eq f _ s.fb (by simp) (by omega)]
  simp only [hz]
  rfl

/-- Everything CONSTRUCT can do where it answers a next state. -/
theorem construct_next (h : construct f addr cmd seg cfg n cyc chk s = .next t) :
    cyc.length = cyclicWordsRead n ∧
    ((recognized cmd.toNat = false ∧
        t = { s with resp := some { status := .invalidCommand, size := some 0 } }) ∨
      (recognized cmd.toNat = true ∧ frameSize n chk > Config.capacity ∧
        t = { s with resp := some { status := .oversizedPayload, size := some 0 } }) ∨
      (recognized cmd.toNat = true ∧ frameSize n chk ≤ Config.capacity ∧
        t = { s with
          fb := s.fb.writeList 0 (frameWords f (packHeader addr seg (cmdLow cmd)) cfg.toList cyc chk)
          resp := some { status := .ok, size := some (BitVec.ofNat 8 (frameSize n chk)) } })) := by
  by_cases hl : cyc.length = cyclicWordsRead n
  · refine ⟨hl, ?_⟩
    cases hr : recognized cmd.toNat with
    | false => rw [construct_invalid hl hr] at h; exact .inl ⟨rfl, by simpa using h.symm⟩
    | true =>
      by_cases hs : frameSize n chk ≤ Config.capacity
      · rw [construct_accepted hl hr hs] at h; exact .inr (.inr ⟨rfl, hs, by simpa using h.symm⟩)
      · rw [construct_oversized hl hr (by omega)] at h
        exact .inr (.inl ⟨rfl, by omega, by simpa using h.symm⟩)
  · rw [construct_refused hl] at h; cases h

end Sys2Proof.Machine
end

