-- ==== Sys2Proof/Laws/Header.lean ====
section
/-! SUPPORT. Field laws of the header word (spec/30_encoding.md R71 to R73) and of list operands. -/

namespace Sys2Proof

/-- GETADDR's field of a packed header is the address packed (R73). -/
theorem hdrAddr_packHeader (a : BitVec 12) (s : Bit) (c : BitVec 3) : hdrAddr (packHeader a s c) = a := by
  apply BitVec.eq_of_getLsbD_eq
  intro i hi
  simp only [hdrAddr, packHeader, BitVec.getLsbD_extractLsb', BitVec.getLsbD_append]
  rw [if_neg (by omega), if_neg (by omega)]
  simp [show 4 + i - 3 - 1 = i by omega]
  omega

/-- GETSEG's bit of a packed header is the flag packed (R73). -/
theorem hdrSeg_packHeader (a : BitVec 12) (s : Bit) (c : BitVec 3) : hdrSeg (packHeader a s c) = s := by
  apply BitVec.eq_of_getLsbD_eq
  intro i hi
  simp only [hdrSeg, packHeader, BitVec.getLsbD_extractLsb', BitVec.getLsbD_append]
  rw [if_neg (by omega), if_pos (by omega)]
  simp [show i = 0 by omega]

/-- GETCMD's field of a packed header is the command packed (R73). -/
theorem hdrCmd_packHeader (a : BitVec 12) (s : Bit) (c : BitVec 3) : hdrCmd (packHeader a s c) = c := by
  apply BitVec.eq_of_getLsbD_eq
  intro i hi
  simp only [hdrCmd, packHeader, BitVec.getLsbD_extractLsb', BitVec.getLsbD_append]
  rw [if_pos (by omega)]
  simp [hi]

/-- A recognized code is below 8, so `cmd[2:0]` is `cmd` (R83). -/
theorem recognized_lt {c : Nat} (h : recognized c = true) : c < 8 := by
  simp [recognized] at h; omega

/-- For a recognized command the 3 bits that enter the header have its value (R83). -/
theorem cmdLow_toNat {cmd : BitVec 8} (h : recognized cmd.toNat = true) : (cmdLow cmd).toNat = cmd.toNat := by
  have := recognized_lt h
  simp [cmdLow, BitVec.extractLsb'_toNat]
  omega

/-- The words of a list field: the list's, and 0 after them (R85). -/
theorem wordField_toList (k : Nat) (ws : List Word) :
    (wordField k ws).toList = ws.take k ++ List.replicate (k - ws.length) 0 := rfl

/-- The first words of a list field are the list (R83: copied verbatim). -/
theorem take_wordField {k m : Nat} {ws : List Word} (hm : m = ws.length) (hk : m ≤ k) :
    (wordField k ws).toList.take m = ws := by
  subst hm
  rw [wordField_toList, List.take_of_length_le hk, List.take_left']
  rfl

/-- A list of the field's length fills it (R83). -/
theorem wordField_of_length {k : Nat} {ws : List Word} (h : ws.length = k) : (wordField k ws).toList = ws := by
  rw [wordField_toList, List.take_of_length_le (by omega), h, Nat.sub_self]
  simp

/-- A list field filled from a field of the same width is that field. -/
theorem wordField_toList_self {k : Nat} (v : Vector Word k) : wordField k v.toList = v := by
  apply Vector.toArray_inj.1
  apply Array.toList_inj.1
  exact wordField_of_length (by simp)

end Sys2Proof
end

