-- ==== Sys2Proof/Laws/Instructions.lean ====
section
/-! SUPPORT. For each operation that reads FB, everything it can do where it answers a next state, and when it
does. CONSTRUCT's is in Laws/Encoder.lean. -/

namespace Sys2Proof.Machine

variable {s t : State}

theorem execGetaddr_next (h : execGetaddr s = .next t) :
    ∃ w, s.fb.read 0 = some w ∧ t = { s with resp := some { status := .ok, addr := some (hdrAddr w) } } := by
  obtain ⟨w, hw, hk⟩ := readWordThen_next h
  exact ⟨w, hw, respond_next hk⟩

theorem execGetcmd_next (h : execGetcmd s = .next t) :
    ∃ w, s.fb.read 0 = some w ∧
      t = { s with
        resp := some {
          status := .ok, cmd := some (hdrCmd w), recognized := some (b2w (recognized (hdrCmd w).toNat)),
          kind := some (kind (hdrCmd w).toNat) } } := by
  obtain ⟨w, hw, hk⟩ := readWordThen_next h
  exact ⟨w, hw, respond_next hk⟩

theorem execGetseg_next (h : execGetseg s = .next t) :
    ∃ w, s.fb.read 0 = some w ∧ t = { s with resp := some { status := .ok, seg := some (hdrSeg w) } } := by
  obtain ⟨w, hw, hk⟩ := readWordThen_next h
  exact ⟨w, hw, respond_next hk⟩

theorem execGetcfg_next (h : execGetcfg s = .next t) :
    ∃ ws, memRead s.fb 1 4 = .ok ws ∧
      t = { s with resp := some { status := .ok, size := some 4, words := some ws } } := by
  obtain ⟨ws, hws, hk⟩ := readThen_next h
  exact ⟨ws, hws, respond_next hk⟩

theorem execGetcyc_next {len : BitVec 8} {haschk : Bit} (h : execGetcyc len haschk s = .next t) :
    ((len.toNat > 128 ∨ len.toNat < 5 + haschk.toNat) ∧
        t = { s with resp := some { status := .badLength, size := some 0, words := some [] } }) ∨
      (5 + haschk.toNat ≤ len.toNat ∧ len.toNat ≤ 128 ∧
        ∃ ws, memRead s.fb 5 (len.toNat - 5 - haschk.toNat) = .ok ws ∧
          t = { s with
            resp := some {
              status := .ok, size := some (BitVec.ofNat 8 (len.toNat - 5 - haschk.toNat)), words := some ws } }) := by
  unfold execGetcyc at h
  split at h
  · rename_i hb; exact .inl ⟨hb, raise_next h⟩
  · rename_i hb
    obtain ⟨ws, hws, hk⟩ := readThen_next h
    exact .inr ⟨by simp at hb; omega, by simp at hb; omega, ws, hws, respond_next hk⟩

theorem verify_next {f : List Word → Word} {len : BitVec 8} (h : verify f len s = .next t) :
    ((len.toNat < 6 ∨ len.toNat > 128) ∧
        t = { s with resp := some { status := .badLength, valid := some 0 } }) ∨
      (6 ≤ len.toNat ∧ len.toNat ≤ 128 ∧
        ∃ ws w, memRead s.fb 0 (len.toNat - 1) = .ok ws ∧ s.fb.read (len.toNat - 1) = some w ∧
          t = { s with resp := some { status := .ok, valid := some (b2w (f ws == w)) } }) := by
  unfold verify at h
  split at h
  · rename_i hb; exact .inl ⟨hb, raise_next h⟩
  · rename_i hb
    obtain ⟨ws, hws, hk⟩ := readThen_next h
    obtain ⟨w, hw, hk⟩ := readWordThen_next hk
    exact .inr ⟨by simp at hb; omega, by simp at hb; omega, ws, w, hws, hw, respond_next hk⟩

theorem execRdw_next {idx : BitVec 7} (h : execRdw idx s = .next t) :
    ∃ w, s.fb.read idx.toNat = some w ∧ t = { s with resp := some { status := .ok, data := some w } } := by
  obtain ⟨w, hw, hk⟩ := readWordThen_next h
  exact ⟨w, hw, respond_next hk⟩

/-- WRW always completes (R161). -/
theorem execWrw_eq (idx : BitVec 7) (data : Word) (s : State) :
    execWrw idx data s =
      .next { s with fb := s.fb.write idx.toNat data, resp := some { status := .ok } } :=
  storeWord_inside data s (by simp; omega)

/-- A header word received is FB[0] written, status OK (R162; log 7). -/
theorem receiveHeader_eq (h : Word) (s : State) :
    receiveHeader h s = .next { s with fb := s.fb.write 0 h, resp := some { status := .ok } } :=
  storeWord_inside h s (by simp)

/-- CHECK inside its range with every word written completes with the comparison (R145). -/
theorem verify_eq {f : List Word → Word} {len : BitVec 8} {ws : List Word} {w : Word}
    (h6 : 6 ≤ len.toNat) (h128 : len.toNat ≤ 128) (hws : memRead s.fb 0 (len.toNat - 1) = .ok ws)
    (hw : s.fb.read (len.toNat - 1) = some w) :
    verify f len s = .next { s with resp := some { status := .ok, valid := some (b2w (f ws == w)) } } := by
  unfold verify
  rw [if_neg (by simp; omega)]
  unfold readThen
  rw [hws]
  simp only
  rw [readWordThen_some _ (by simp; omega) hw]
  rfl

/-- No operation looks at the response that stands before it (R35, R60). -/
theorem exec_set_resp (i : Instr) (s : State) (q : Option Response) : exec i { s with resp := q } = exec i s := by
  cases i <;> rfl

/-- Nor does performing what is no instruction. -/
theorem perform_set_resp (p : Packet) (s : State) (q : Option Response) :
    perform p { s with resp := q } = perform p s := by
  unfold perform
  split
  · exact exec_set_resp _ s q
  · rename_i e _; cases e <;> rfl

end Sys2Proof.Machine
end

