-- ==== Sys2Proof/Laws/PerInstr.lean ====
section
/-! SUPPORT. The families of statements made per instruction (LAWS.json). -/

namespace Sys2Proof.Laws.RoundTrip

/-- Decoding the record or header word of a well-formed instruction gives the instruction back. -/
def Statement (i : Instr) : Prop := i.wellFormed = true → decode (encode i) = .ok i

theorem construct (addr : BitVec 12) (cmd : BitVec 8) (seg : Bit) (cfg : Vector Word 4) (n : BitVec 8)
    (cyc : List Word) (chk : Bit) : Statement (.construct addr cmd seg cfg n cyc chk) := by
  intro h
  have hl : cyc.length = cyclicWordsRead n := by simpa [Instr.wellFormed] using h
  have : (wordField 123 cyc).toList.take (cyclicWordsRead n) = cyc :=
    take_wordField hl.symm (by simp [cyclicWordsRead])
  simp [encode, decode, decodeRequest, this]

theorem getaddr : Statement .getaddr := fun _ => rfl
theorem getcmd : Statement .getcmd := fun _ => rfl
theorem getseg : Statement .getseg := fun _ => rfl
theorem getcfg : Statement .getcfg := fun _ => rfl
theorem getcyc (len : BitVec 8) (haschk : Bit) : Statement (.getcyc len haschk) := fun _ => rfl
theorem check (len : BitVec 8) : Statement (.check len) := fun _ => rfl
theorem rdw (idx : BitVec 7) : Statement (.rdw idx) := fun _ => rfl
theorem wrw (idx : BitVec 7) (data : Word) : Statement (.wrw idx data) := fun _ => rfl

theorem hdrRead (addr : BitVec 12) (seg : Bit) : Statement (.hdrRead addr seg) := fun _ => by
  simp [encode, decode, decodeHeader, hdrCmd_packHeader, hdrAddr_packHeader, hdrSeg_packHeader]

theorem hdrWrite (addr : BitVec 12) (seg : Bit) : Statement (.hdrWrite addr seg) := fun _ => by
  simp [encode, decode, decodeHeader, hdrCmd_packHeader, hdrAddr_packHeader, hdrSeg_packHeader]

theorem hdrAck (addr : BitVec 12) (seg : Bit) : Statement (.hdrAck addr seg) := fun _ => by
  simp [encode, decode, decodeHeader, hdrCmd_packHeader, hdrAddr_packHeader, hdrSeg_packHeader]

theorem hdrReadError (addr : BitVec 12) (seg : Bit) : Statement (.hdrReadError addr seg) := fun _ => by
  simp [encode, decode, decodeHeader, hdrCmd_packHeader, hdrAddr_packHeader, hdrSeg_packHeader]

theorem hdrWriteError (addr : BitVec 12) (seg : Bit) : Statement (.hdrWriteError addr seg) := fun _ => by
  simp [encode, decode, decodeHeader, hdrCmd_packHeader, hdrAddr_packHeader, hdrSeg_packHeader]

theorem hdrIdle (addr : BitVec 12) (seg : Bit) : Statement (.hdrIdle addr seg) := fun _ => by
  simp [encode, decode, decodeHeader, hdrCmd_packHeader, hdrAddr_packHeader, hdrSeg_packHeader]

end Sys2Proof.Laws.RoundTrip
end

