-- ==== Sys2Proof/Machine/SourceText.lean ====
section
/-! DEFINITION. Reading the textual form of spec/30_encoding.md R85 and R86: one request per line, numbers
decimal or `0x` hexadecimal, `;` starting a comment (log 20). Beside the machine: the machine takes the lines
read (`Packet.line`). -/

namespace Sys2Proof.SourceText

/-- A token of a line. -/
inductive Token where
  | name (cs : List Char)
  | num (v : Nat)
  | comma
  | openList
  | closeList
deriving DecidableEq, Repr

/-- An operand: a number, or a braced list of numbers. -/
inductive Operand where
  | num (v : Nat)
  | list (vs : List Nat)
deriving DecidableEq, Repr

/-- The opening brace. -/
def openBrace : Char := Char.ofNat 0x7B

/-- The closing brace. -/
def closeBrace : Char := Char.ofNat 0x7D

/-- The value of a digit in a base of at most 16. -/
def digit (base : Nat) (c : Char) : Option Nat :=
  let v :=
    if '0' ≤ c ∧ c ≤ '9' then c.toNat - '0'.toNat
    else if 'a' ≤ c ∧ c ≤ 'f' then c.toNat - 'a'.toNat + 10
    else if 'A' ≤ c ∧ c ≤ 'F' then c.toNat - 'A'.toNat + 10
    else base
  if v < base then some v else none

/-- The number a list of digits writes, after the value `acc` of the digits before it. -/
def digits (base : Nat) : Nat → List Char → Option Nat
  | acc, [] => some acc
  | acc, c :: cs =>
    match digit base c with
    | some d => digits base (base * acc + d) cs
    | none => none

/-- A number: `0x` and hexadecimal digits, or decimal digits (R85). -/
def number : List Char → Option Nat
  | [] => none
  | '0' :: 'x' :: c :: cs => digits 16 0 (c :: cs)
  | c :: cs => digits 10 0 (c :: cs)

/-- The token of a run of letters and digits: a number where it begins with a digit, else a name. -/
def atom : List Char → Option (List Token)
  | [] => some []
  | c :: cs =>
    if '0' ≤ c ∧ c ≤ '9' then (number (c :: cs)).map fun v => [.num v]
    else some [.name (c :: cs)]

/-- The tokens of a line; `run` holds the letters and digits read so far, the last one first. A `;` ends the
line (R85). -/
def tokens : List Char → List Char → Option (List Token)
  | run, [] => atom run.reverse
  | run, c :: cs =>
    if c = ';' then atom run.reverse
    else if c = ' ' ∨ c = '\t' ∨ c = '\r' then
      (atom run.reverse).bind fun a => (tokens [] cs).map fun ts => a ++ ts
    else if c = ',' then (atom run.reverse).bind fun a => (tokens [] cs).map fun ts => a ++ .comma :: ts
    else if c = openBrace then (atom run.reverse).bind fun a => (tokens [] cs).map fun ts => a ++ .openList :: ts
    else if c = closeBrace then
      (atom run.reverse).bind fun a => (tokens [] cs).map fun ts => a ++ .closeList :: ts
    else tokens (c :: run) cs

/-- Where the reading of an operand list stands. -/
inductive Mode where
  | start
  | afterOperand
  | afterComma
  | listStart
  | listItem (vs : List Nat)
  | listComma (vs : List Nat)
deriving DecidableEq, Repr

/-- The operands a token list writes: separated by commas, a list in braces. -/
def operands : Mode → List Token → Option (List Operand)
  | .start, [] => some []
  | .afterOperand, [] => some []
  | .start, .num v :: ts => (operands .afterOperand ts).map fun os => .num v :: os
  | .afterComma, .num v :: ts => (operands .afterOperand ts).map fun os => .num v :: os
  | .start, .openList :: ts => operands .listStart ts
  | .afterComma, .openList :: ts => operands .listStart ts
  | .afterOperand, .comma :: ts => operands .afterComma ts
  | .listStart, .closeList :: ts => (operands .afterOperand ts).map fun os => .list [] :: os
  | .listStart, .num v :: ts => operands (.listItem [v]) ts
  | .listItem vs, .comma :: ts => operands (.listComma vs) ts
  | .listItem vs, .closeList :: ts => (operands .afterOperand ts).map fun os => .list vs :: os
  | .listComma vs, .num v :: ts => operands (.listItem (vs ++ [v])) ts
  | _, _ => none

/-- The request of a mnemonic and its operands (R85, R86). -/
def request (name : List Char) (os : List Operand) : Option Line :=
  match String.ofList name, os with
  | "CONSTRUCT", [.num addr, .num cmd, .num seg, .list cfg, .num n, .list cyc, .num chk] =>
    some (.construct addr cmd seg cfg (some n) cyc chk)
  | "CONSTRUCT", [.num addr, .num cmd, .num seg, .list cfg, .list cyc, .num chk] =>
    some (.construct addr cmd seg cfg none cyc chk)
  | "IDLE", [.num addr, .num chk] => some (.idle addr chk)
  | "GETADDR", [] => some .getaddr
  | "GETCMD", [] => some .getcmd
  | "GETSEG", [] => some .getseg
  | "GETCFG", [] => some .getcfg
  | "GETCYC", [.num len, .num haschk] => some (.getcyc len haschk)
  | "CHECK", [.num len] => some (.check len)
  | "RDW", [.num idx] => some (.rdw idx)
  | "WRW", [.num idx, .num data] => some (.wrw idx data)
  | _, _ => none

/-- One line of text: its request if it has one, no request if it is blank or a comment; `none` where it is
not of the form of R85. -/
def readLine (cs : List Char) : Option (List Line) :=
  match tokens [] cs with
  | none => none
  | some [] => some []
  | some (.name m :: ts) => (operands .start ts).bind fun os => (request m os).map fun l => [l]
  | some _ => none

/-- A text, line by line, `run` holding the current line, the last letter first. -/
def readLines : List Char → List Char → Option (List Line)
  | run, [] => readLine run.reverse
  | run, c :: cs =>
    if c = '\n' then (readLine run.reverse).bind fun ls => (readLines [] cs).map fun more => ls ++ more
    else readLines (c :: run) cs

/-- The requests a text writes (R85), as a host presents them. -/
def program (host : Nat) (text : List Char) : Option (List Event) :=
  (readLines [] text).map fun ls => ls.map fun l => .present host (.line l)

end Sys2Proof.SourceText
end

