-- ==== Sys2Proof/Tests/Slice0.lean ====
section
/-! SUPPORT. Small tests of single steps. Expected values are spec/95_test_vectors.md's (section named at each
test) or read off the encoding tables of spec/30_encoding.md and spec/opcode_table.json. -/

namespace Sys2Proof.Tests

open Sys2Proof.Machine

/-- A state whose FB holds `ws` from index 0 on, everything else unwritten. -/
def holding (ws : List Word) : State := { State.reset with fb := Memory.writeList [] 0 ws }

/-- The response of an outcome that is a next state. -/
def respOf : Host.Outcome State Fault Refusal → Option Response
  | .next t => t.resp
  | _ => none

/-- The frame buffer of an outcome that is a next state. -/
def fbOf : Host.Outcome State Fault Refusal → Option Memory
  | .next t => some t.fb
  | _ => none

/-- The fault of an outcome that is one. -/
def faultOf : Host.Outcome State Fault Refusal → Option Fault
  | .fault f => some f
  | _ => none

/-- The refusal of an outcome that is one. -/
def refusalOf : Host.Outcome State Fault Refusal → Option Refusal
  | .refused r => some r
  | _ => none

/-- The frame of spec/95_test_vectors.md 1.1. -/
def frameA : List Word := [0x00A2, 0x1111, 0x2222, 0x3333, 0x4444, 0xDA9A]

/-- The frame of spec/95_test_vectors.md 2.3. -/
def frameB : List Word := [0x1233, 0x000A, 0x000B, 0x000C, 0x000D, 0x1000, 0x2000, 0x3000, 0x157F]

/-! Well-formedness: the smoke tests. -/

theorem test_wellFormed_refuses_short_list :
    Instr.wellFormed (.construct 0 2 0 #v[0, 0, 0, 0] 2 [7] 0) = false := by decide
theorem test_wellFormed_refuses_long_list :
    Instr.wellFormed (.construct 0 2 0 #v[0, 0, 0, 0] 0 [7] 0) = false := by decide
theorem test_wellFormed_accepts : Instr.wellFormed (.construct 0 2 0 #v[0, 0, 0, 0] 1 [7] 0) = true := by decide
theorem test_exec_refuses_ill_formed :
    refusalOf (exec (.construct 0 2 0 #v[0, 0, 0, 0] 2 [7] 0) State.reset) =
      some (.unrepresentable .cyclicListLength) := by decide

/-! Decoding: a word for every constructor. Operation rows: the 4 bits of `op` (R80). Header rows:
aaaaaaaaaaaa s ccc (R70, R74). Operands beyond `op` stand in the record's fields (R33). -/

theorem test_decode_construct :
    decodeTableWord 8 0b0001 = some (.construct 0 0 0 #v[0, 0, 0, 0] 0 [] 0) := by decide
theorem test_decode_getaddr : decodeTableWord 8 0b0010 = some .getaddr := by decide
theorem test_decode_getcmd : decodeTableWord 8 0b0011 = some .getcmd := by decide
theorem test_decode_getseg : decodeTableWord 8 0b0100 = some .getseg := by decide
theorem test_decode_getcfg : decodeTableWord 8 0b0101 = some .getcfg := by decide
theorem test_decode_getcyc : decodeTableWord 8 0b0110 = some (.getcyc 0 0) := by decide
theorem test_decode_check : decodeTableWord 8 0b0111 = some (.check 0) := by decide
theorem test_decode_rdw : decodeTableWord 8 0b1000 = some (.rdw 0) := by decide
theorem test_decode_wrw : decodeTableWord 8 0b1001 = some (.wrw 0 0) := by decide
theorem test_decode_hdrRead : decodeTableWord 16 0b1111111111111001 = some (.hdrRead 0xFFF 1) := by decide
theorem test_decode_hdrWrite : decodeTableWord 16 0b0000000010100010 = some (.hdrWrite 0x00A 0) := by decide
theorem test_decode_hdrAck : decodeTableWord 16 0b0001001000110011 = some (.hdrAck 0x123 0) := by decide
theorem test_decode_hdrReadError : decodeTableWord 16 0b1000000000001101 = some (.hdrReadError 0x800 1) := by decide
theorem test_decode_hdrWriteError : decodeTableWord 16 0b0000000000010110 = some (.hdrWriteError 0x001 0) := by decide
theorem test_decode_hdrIdle : decodeTableWord 16 0b0000000000011111 = some (.hdrIdle 0x001 1) := by decide
theorem test_decode_rejects_reserved_ops :
    ([0x0, 0xA, 0xB, 0xC, 0xD, 0xE, 0xF].map (decodeTableWord 8)) = List.replicate 7 none := by decide
theorem test_decode_rejects_reserved_commands :
    ([0x0000, 0x8004, 0xFFF8].map (decodeTableWord 16)) = List.replicate 3 none := by decide
/-- 3.1 P1: `op=0x1 addr=0x00A cmd=0x02 seg=0 cfg=[0x1111,0x2222,0x3333,0x4444] n=0x00 chk=1`; `cyc` is
don't-care. -/
theorem test_decode_record_construct :
    decode (.request { Request.zero with
      op := 0x1, addr := 0x00A, cmd := 0x02, cfg := #v[0x1111, 0x2222, 0x3333, 0x4444], chk := 1
      cyc := Vector.replicate 123 0xBEEF }) =
      .ok (.construct 0x00A 2 0 #v[0x1111, 0x2222, 0x3333, 0x4444] 0 [] 1) := by decide
/-- 3.2 P2: `op=0x6 len=0x09 haschk=1`; `idx` is don't-care. -/
theorem test_decode_record_getcyc :
    decode (.request { Request.zero with op := 0x6, len := 0x09, haschk := 1, idx := 5 }) = .ok (.getcyc 9 1) := by
  decide
/-- 3.1 P1 and 3.2 P2. -/
theorem test_decode_record_others :
    decode (.request { Request.zero with op := 0x7, len := 0x06 }) = .ok (.check 6) ∧
      decode (.request { Request.zero with op := 0x8, idx := 0x05 }) = .ok (.rdw 5) ∧
      decode (.request { Request.zero with op := 0x9, idx := 0x06, data := 0x2001 }) = .ok (.wrw 6 0x2001) := by
  decide
/-- The packing of log 9, field by field: CHECK with len = 6 has `len` above 4+12+8+1+64+8+1968+1 bits. -/
theorem test_decode_packed_check : decodeTableWord 2104 (7 + 6 * 2 ^ 2066) = some (.check 6) := by decide +kernel

/-- The packed widths are those of the parameter table (R8, R33). -/
theorem test_widths_match_parameters :
    requestWidths.take 9 =
        [4, Config.addrWidth, Config.cmdOperandWidth, Config.segWidth, 16, 16, 16, 16, Config.nOperandWidth] ∧
      requestWidths.drop 132 = [1, Config.lenOperandWidth, 1, Config.indexWidth, 16] ∧
      Config.addrWidth + Config.segWidth + Config.cmdWidth = 16 := by decide

/-! Header packing (95 section 2.1). -/

theorem test_packHeader :
    packHeader 0x00A 0 2 = 0x00A2 ∧ packHeader 0x00A 1 2 = 0x00AA ∧ packHeader 0x800 1 5 = 0x800D ∧
      packHeader 0xFFF 1 7 = 0xFFFF := by decide
theorem test_unpackHeader :
    hdrAddr 0x8004 = 0x800 ∧ hdrSeg 0x8004 = 0 ∧ hdrCmd 0x8004 = 4 ∧ hdrAddr 0x000F = 0 ∧ hdrSeg 0x000F = 1 := by
  decide

/-! CHK16 (95 section 2.4). -/

theorem test_chk16_short :
    chk16 [] = 0xFFFF ∧ chk16 [0x0000] = 0x1D0F ∧ chk16 [0x0001] = 0x0D2E ∧ chk16 [0x8000] = 0x0697 ∧
      chk16 [0xFFFF] = 0x0000 := by decide +kernel
theorem test_chk16_frames :
    chk16 [0x0017, 0, 0, 0, 0] = 0x036C ∧ chk16 [0xFFF9, 0xDEAD, 0xBEEF, 1, 2] = 0xEFF1 ∧
      chk16 [0x00A2, 0x1111, 0x2223, 0x3333, 0x4444] = 0x70CB := by decide +kernel
/-- "123456789" in ASCII. -/
theorem test_chk16Bytes : chk16Bytes [0x31, 0x32, 0x33, 0x34, 0x35, 0x36, 0x37, 0x38, 0x39] = 0x29B1 := by decide +kernel

/-! CONSTRUCT (95 section 2.2). -/

theorem test_construct_frameA :
    let o := exec (.construct 0x00A 2 0 #v[0x1111, 0x2222, 0x3333, 0x4444] 0 [] 1) State.reset
    fbOf o = some (Memory.writeList [] 0 frameA) ∧ respOf o = some { status := .ok, size := some 6 } := by decide +kernel
/-- The words beyond the new frame stay; 3.3 P3. -/
theorem test_construct_keeps_stale_words :
    let o := exec (.construct 0x001 7 0 #v[0, 0, 0, 0] 0 [] 1)
      (holding [0xFFF9, 0xDEAD, 0xBEEF, 0x0001, 0x0002, 0x0A0A, 0x0B0B])
    fbOf o = some (Memory.writeList [] 0 [0x0017, 0, 0, 0, 0, 0x036C, 0x0B0B]) := by decide +kernel
theorem test_construct_invalid_before_oversized :
    let o := exec (.construct 0 4 0 #v[0, 0, 0, 0] 200 (List.replicate 123 0) 0) State.reset
    fbOf o = some [] ∧ respOf o = some { status := .invalidCommand, size := some 0 } := by decide +kernel
/-- The exact sum 261 does not wrap. -/
theorem test_construct_oversized_no_wrap :
    respOf (exec (.construct 0x123 3 0 #v[0, 0, 0, 0] 255 (List.replicate 123 0) 1) State.reset) =
      some { status := .oversizedPayload, size := some 0 } := by decide +kernel

/-! The decoder (95 section 2.3). -/

theorem test_getaddr : respOf (exec .getaddr (holding frameB)) = some { status := .ok, addr := some 0x123 } := by
  decide
theorem test_getcmd :
    respOf (exec .getcmd (holding frameB)) =
      some { status := .ok, cmd := some 3, recognized := some 1, kind := some .ack } := by decide
theorem test_getcmd_reserved :
    respOf (exec .getcmd (holding [0x8004])) =
      some { status := .ok, cmd := some 4, recognized := some 0, kind := some .unrecognized } := by decide
theorem test_getseg : respOf (exec .getseg (holding [0xFFF9])) = some { status := .ok, seg := some 1 } := by decide
theorem test_getcfg :
    respOf (exec .getcfg (holding frameB)) =
      some { status := .ok, size := some 4, words := some [0x000A, 0x000B, 0x000C, 0x000D] } := by decide
theorem test_getcfg_unwritten : faultOf (exec .getcfg State.reset) = some (.unwrittenWord 1) := by decide
theorem test_getcyc :
    respOf (exec (.getcyc 9 1) (holding frameB)) =
      some { status := .ok, size := some 3, words := some [0x1000, 0x2000, 0x3000] } ∧
    respOf (exec (.getcyc 5 1) (holding frameB)) =
      some { status := .badLength, size := some 0, words := some [] } := by decide
theorem test_getcyc_unwritten : faultOf (exec (.getcyc 128 1) (holding frameB)) = some (.unwrittenWord 9) := by
  decide

/-! CHECK (95 section 2.5). -/

theorem test_check_frameA :
    respOf (exec (.check 6) (holding frameA)) = some { status := .ok, valid := some 1 } ∧
      respOf (exec (.check 6) (holding [0x00A2, 0x1111, 0x2223, 0x3333, 0x4444, 0xDA9A])) =
        some { status := .ok, valid := some 0 } := by decide +kernel
theorem test_check_lengths :
    respOf (exec (.check 5) (holding frameA)) = some { status := .badLength, valid := some 0 } ∧
      respOf (exec (.check 129) (holding frameA)) = some { status := .badLength, valid := some 0 } ∧
      faultOf (exec (.check 7) (holding frameA)) = some (.unwrittenWord 6) := by decide

/-! The host port (95 section 2.6). -/

theorem test_rdw :
    respOf (exec (.rdw 5) (holding frameA)) = some { status := .ok, data := some 0xDA9A } ∧
      faultOf (exec (.rdw 64) (holding frameA)) = some (.unwrittenWord 64) := by decide
theorem test_wrw :
    let o := exec (.wrw 127 0xFFFF) State.reset
    fbOf o = some [(127, 0xFFFF)] ∧ respOf o = some { status := .ok } := by decide

/-! Header words received (R162; 30_encoding.md R71 for the word). -/

theorem test_hdrRead : fbOf (exec (.hdrRead 0xFFF 1) State.reset) = some [(0, 0xFFF9)] := by decide
theorem test_hdrWrite : fbOf (exec (.hdrWrite 0x00A 0) State.reset) = some [(0, 0x00A2)] := by decide
theorem test_hdrAck : fbOf (exec (.hdrAck 0x123 0) State.reset) = some [(0, 0x1233)] := by decide
theorem test_hdrReadError : fbOf (exec (.hdrReadError 0x800 1) State.reset) = some [(0, 0x800D)] := by decide
theorem test_hdrWriteError : fbOf (exec (.hdrWriteError 0x001 0) State.reset) = some [(0, 0x0016)] := by decide
theorem test_hdrIdle : fbOf (exec (.hdrIdle 0x001 0) State.reset) = some [(0, 0x0017)] := by decide

/-! Steps: operation select (95 section 2.7), the stream, reset. -/

theorem test_step_illegalOp :
    let o := step (presentFirst (.request { Request.zero with op := 0xA, cmd := 4 }) (holding frameA))
    respOf o = some { status := .illegalOp } ∧ fbOf o = some (Memory.writeList [] 0 frameA) := by decide
theorem test_step_fetchWord :
    step (State.reset.withFetchWord 16 0x1233) =
      exec (.hdrAck 0x123 0) { State.reset with owner := some 0 } := by rfl
theorem test_step_second_host :
    refusalOf (step { holding frameA with owner := some 1, pending := [.present 2 (.line .getaddr)] }) =
      some .secondHost := by decide
theorem test_step_reset : fbOf (step { holding frameA with pending := [.reset] }) = some [] := by decide
/-- R75, R161: a received header with a reserved command is stored like any word. -/
theorem test_step_reserved_header : fbOf (step (presentFirst (.header 0x8004) State.reset)) = some [(0, 0x8004)] := by
  decide

/-! Textual requests (R85, R86). -/

/-- A braced list in a text. -/
def braced (cs : List Char) : List Char := SourceText.openBrace :: cs ++ [SourceText.closeBrace]

/-- 3.1 P1, first line. -/
theorem test_readLine_construct :
    SourceText.readLine ("CONSTRUCT 0x00A, 2, 0, ".toList ++ braced "0x1111,0x2222,0x3333,0x4444".toList ++
      ", 0, ".toList ++ braced [] ++ ", 1 ; encoding".toList) =
      some [.construct 0x00A 2 0 [0x1111, 0x2222, 0x3333, 0x4444] (some 0) [] 1] := by decide
theorem test_readLines : SourceText.readLines [] "GETCYC   9, 1\n\n; only text\nWRW 6, 0x2001".toList =
    some [.getcyc 9 1, .wrw 6 0x2001] := by decide
theorem test_readLine_refuses : SourceText.readLine "RDW 5,".toList = none := by decide
theorem test_assemble_idle :
    decode (.line (.idle 0x001 1)) = .ok (.construct 0x001 7 0 #v[0, 0, 0, 0] 0 [] 1) := by decide
theorem test_assemble_count :
    decode (.line (.construct 1 3 0 [] none [5, 6] 0)) = .ok (.construct 1 3 0 #v[0, 0, 0, 0] 2 [5, 6] 0) := by
  decide
theorem test_assemble_refuses :
    decode (.line (.construct 0x1000 2 0 [] none [] 0)) = .error (.unrepresentable .addrTooWide) ∧
      decode (.line (.rdw 128)) = .error (.unrepresentable .idxTooWide) ∧
      decode (.line (.construct 1 2 0 [] (some 2) [5] 0)) = .error (.unrepresentable .cyclicListLength) := by
  decide

/-! The wire (R56, R142). -/

theorem test_wireBytes :
    wireBytes .highFirst [0x1233, 0x000A] = [0x12, 0x33, 0x00, 0x0A] ∧
      wireBytes .lowFirst [0x1233] = [0x33, 0x12] := by decide

end Sys2Proof.Tests
end

