-- ==== Sys2Proof/Tests/Witnesses.lean ====
section
/-! SUPPORT. For each statement of Certificates/Slice0/Obligations.lean that has hypotheses, one named theorem
with concrete values that meet all of them together, at a boundary value where the statement has a range. -/

namespace Sys2Proof.Tests

open Sys2Proof.Machine

/-- Whether an outcome is a next state with a property. -/
def nextWith (o : Host.Outcome State Fault Refusal) (p : State → Prop) [DecidablePred p] : Bool :=
  match o with
  | .next t => decide (p t)
  | _ => false

theorem exists_next {o : Host.Outcome State Fault Refusal} {p : State → Prop} [DecidablePred p]
    (h : nextWith o p = true) : ∃ t, o = .next t ∧ p t := by
  cases o with
  | next t => exact ⟨t, rfl, by simpa [nextWith] using h⟩
  | fault _ => simp [nextWith] at h
  | refused _ => simp [nextWith] at h

/-- Four words of config. -/
def cfgA : Vector Word 4 := #v[0x1111, 0x2222, 0x3333, 0x4444]

/-- CONSTRUCT at the two largest frames and the smallest. -/
def largestPlain : Instr := .construct 0x02A 3 0 cfgA 123 (List.replicate 123 5) 0
def largestChecked : Instr := .construct 0x02A 3 1 cfgA 122 (List.replicate 122 5) 1
def smallestChecked : Instr := .construct 0x00A 2 0 cfgA 0 [] 1

/-- `n` words 5. -/
def fives (n : Nat) : List Word := List.replicate n 5

theorem fives_length (n : Nat) : (fives n).length = n := List.length_replicate

theorem fives_get {n k : Nat} (h : k < n) : (fives n)[k]? = some 5 := by
  unfold fives; rw [List.getElem?_replicate, if_pos h]

/-- A full buffer, each word 5. -/
def fullBuffer : State := holding (fives 128)

theorem fullBuffer_read {k : Nat} (h : k < 128) : fullBuffer.fb.read k = some 5 := by
  unfold fullBuffer holding
  rw [Memory.read_writeList, if_pos ⟨Nat.zero_le k, by rw [fives_length]; omega⟩]
  exact fives_get h

theorem fullBuffer_placed : FramePlaced fullBuffer.fb 128 := fun i hi => by
  rw [Memory.written, fullBuffer_read hi]; rfl

theorem fullBuffer_wf : fullBuffer.fb.wf := by decide +kernel

/-! ### Encoding -/

theorem witness_TableRowsDecodeByMask :
    (⟨"WRW", 8, 0xF, 0x9⟩ ∈ opcodeTable ∧ (0xF9 : Nat) < 2 ^ 8 ∧ 0xF9 &&& 0xF = 0x9) ∧
      (⟨"HDR.IDLE", 16, 0x7, 0x7⟩ ∈ opcodeTable ∧ (0xFFFF : Nat) < 2 ^ 16 ∧ 0xFFFF &&& 0x7 = 0x7) := by decide +kernel

/-- For DecodeOfEncodeIsTheInstruction and DecodeOfPackedBitsIsTheInstruction. -/
theorem witness_DecodeOfEncode :
    largestPlain.wellFormed = true ∧ largestChecked.wellFormed = true ∧
      (Instr.construct 0 255 1 cfgA 255 (List.replicate 123 9) 1).wellFormed = true := by decide +kernel

theorem witness_UnlistedFieldsAreIgnored :
    let r : Request := { Request.zero with op := 7, len := 255, idx := 1 }
    let r' : Request := { Request.zero with op := 7, len := 255, idx := 2, data := 3 }
    r.op = r'.op ∧ r.op ≠ 1 ∧ r.op ≠ 6 ∧ r.len = r'.len ∧ r.op ≠ 8 ∧ r.op ≠ 9 ∧ r ≠ r' := by decide +kernel

theorem witness_UnlistedFieldsAreIgnored_construct :
    let r : Request := { Request.zero with op := 1, n := 1, cyc := wordField 123 [4, 5], len := 8 }
    let r' : Request := { Request.zero with op := 1, n := 1, cyc := wordField 123 [4, 6], haschk := 1 }
    r.op = r'.op ∧ r.addr = r'.addr ∧ r.cmd = r'.cmd ∧ r.seg = r'.seg ∧ r.cfg = r'.cfg ∧ r.n = r'.n ∧
      r.chk = r'.chk ∧ (∀ k, k < min r.n.toNat 123 → r.cyc.toList[k]? = r'.cyc.toList[k]?) ∧ r ≠ r' := by decide +kernel

/-- The clauses of the other formats, at the ends of the field ranges, and a reserved code. -/
theorem witness_UnlistedFieldsAreIgnored_formats :
    let q (o : BitVec 4) (x : BitVec 12) : Request :=
      { Request.zero with op := o, addr := x, len := 255, haschk := 1, idx := 127, data := 0xFFFF }
    [6, 7, 8, 9, 0, 10, 15].all (fun o =>
      (q o 0).len = (q o 1).len ∧ (q o 0).haschk = (q o 1).haschk ∧ (q o 0).idx = (q o 1).idx ∧
        (q o 0).data = (q o 1).data ∧ q o 0 ≠ q o 1) = true := by decide +kernel

theorem witness_DecodedInstructionsAreWellFormed :
    decode (.request { Request.zero with op := 1, n := 255 }) =
      .ok (.construct 0 0 0 #v[0, 0, 0, 0] 255 (List.replicate 123 0) 0) := by decide +kernel

/-- A line that fits at every boundary, and lines that do not, presented to a free and to a claimed block. -/
theorem witness_LinesAreRefusedExactlyWhenTheyDoNotFit :
    let fits : Line := .wrw 127 0xFFFF
    let tooWide : Line := .rdw 128
    ({ State.reset with pending := [.present 3 (.line fits)] } : State).pending = .present 3 (.line fits) :: [] ∧
      State.reset.owner = none ∧ LineFits fits ∧ ¬ LineFits tooWide := by
  refine ⟨rfl, rfl, ⟨by decide, by decide⟩, ?_⟩
  show ¬ (128 ≤ 127)
  decide

theorem witness_LinesDecodeToTheirOperands :
    LineFits (.construct 0xFFF 255 1 [0xFFFF, 0, 0, 0] (some 255) (List.replicate 123 0xFFFF) 1) ∧
      LineFits (.construct 0 0 0 [0, 0, 0, 0] (some 0) [] 0) ∧ ([0xFFFF, 0, 0, 0] : List Nat).length = 4 ∧
      255 ≤ 255 ∧ 1 ≤ 1 ∧ 127 ≤ 127 ∧ 0xFFFF ≤ 0xFFFF := by
  unfold LineFits
  decide +kernel

/-! ### The encoder -/

theorem witness_ConstructWritesTheFrame :
    ((List.replicate 123 (5 : Word)).length = min (123#8).toNat 123 ∧ (3#8).toNat ∈ [1, 2, 3, 5, 6, 7] ∧
      1 + 4 + (123#8).toNat + (0 : Bit).toNat ≤ 128) ∧
    ((List.replicate 122 (5 : Word)).length = min (122#8).toNat 123 ∧
      1 + 4 + (122#8).toNat + (1 : Bit).toNat ≤ 128) ∧
    (([] : List Word).length = min (0#8).toNat 123 ∧ 1 + 4 + (0#8).toNat + (0 : Bit).toNat ≤ 128) := by decide +kernel

theorem witness_ConstructRejectsUnrecognizedCommands :
    (List.replicate 123 (0 : Word)).length = min (255#8).toNat 123 ∧ (0#8).toNat ∉ [1, 2, 3, 5, 6, 7] ∧
      (4#8).toNat ∉ [1, 2, 3, 5, 6, 7] ∧ (8#8).toNat ∉ [1, 2, 3, 5, 6, 7] ∧
      (255#8).toNat ∉ [1, 2, 3, 5, 6, 7] := by decide +kernel

/-- The last clause, with each of the two errors. -/
theorem witness_ConstructRejectsUnrecognizedCommands_failures :
    (∃ t, exec (.construct 0 0 0 cfgA 0 [] 0) State.reset = .next t ∧
      t.resp = some { status := .invalidCommand, size := some 0 }) ∧
    ∃ t, exec (.construct 0 7 0 cfgA 124 (List.replicate 123 0) 0) State.reset = .next t ∧
      t.resp = some { status := .oversizedPayload, size := some 0 } :=
  ⟨exists_next (by decide +kernel), exists_next (by decide +kernel)⟩

theorem witness_ConstructRejectsOversizedFrames :
    (List.replicate 123 (0 : Word)).length = min (123#8).toNat 123 ∧ (7#8).toNat ∈ [1, 2, 3, 5, 6, 7] ∧
      1 + 4 + (123#8).toNat + (1 : Bit).toNat > 128 ∧
      (List.replicate 123 (0 : Word)).length = min (124#8).toNat 123 ∧
      1 + 4 + (124#8).toNat + (0 : Bit).toNat > 128 := by decide +kernel

/-- For every statement about what follows an accepted CONSTRUCT: FrameSizesAreBounded,
ConstructNeverWritesReservedCommands, DecodersReturnWhatConstructPacked, GetcycReturnsWhatConstructPacked,
CheckAcceptsEveryConstructedFrame. -/
theorem witness_accepted_construct :
    (∃ t, exec largestPlain State.reset = .next t ∧ t.resp = some { status := .ok, size := some 128 }) ∧
    (∃ t, exec largestChecked State.reset = .next t ∧ t.resp = some { status := .ok, size := some 128 }) ∧
    ∃ t, exec smallestChecked State.reset = .next t ∧ t.resp = some { status := .ok, size := some 6 } :=
  ⟨exists_next (by decide +kernel), exists_next (by decide +kernel), exists_next (by decide +kernel)⟩

/-! ### The decoder -/

/-- For GetaddrReturnsTheAddressField, GetcmdReturnsTheCommandAndItsKind, GetsegReturnsTheFlag and
GetcfgReturnsTheConfigWords. -/
theorem witness_header_and_config_written :
    (holding frameB).fb.read 0 = some 0x1233 ∧ (holding frameB).fb.read 1 = some 0x000A ∧
      (holding frameB).fb.read 2 = some 0x000B ∧ (holding frameB).fb.read 3 = some 0x000C ∧
      (holding frameB).fb.read 4 = some 0x000D ∧
      ({ Request.zero with op := 0x2 } : Request).op = 0x2 ∧ ({ Request.zero with op := 0x3 } : Request).op = 0x3 ∧
      ({ Request.zero with op := 0x4 } : Request).op = 0x4 ∧ ({ Request.zero with op := 0x5 } : Request).op = 0x5 := by
  decide

/-- A header word of each command. -/
theorem witness_GetcmdReturnsTheCommandAndItsKind :
    [0, 1, 2, 3, 4, 5, 6, 7].map (fun c : Word => (c.extractLsb' 0 3).toNat) = [0, 1, 2, 3, 4, 5, 6, 7] := by decide +kernel

/-- Both sides of the range, at its ends. -/
theorem witness_GetcycReturnsTheCyclicWords :
    ({ Request.zero with op := 0x6 } : Request).op = 0x6 ∧
      ((129#8).toNat > 128 ∧ (5#8).toNat < 5 + (1 : Bit).toNat ∧ (4#8).toNat < 5 + (0 : Bit).toNat) ∧
      (5 + (0 : Bit).toNat ≤ (5#8).toNat ∧ ([] : List Word).length = (5#8).toNat - 5 - (0 : Bit).toNat) ∧
      (5 + (1 : Bit).toNat ≤ (128#8).toNat ∧ (128#8).toNat ≤ 128 ∧
        (fives 122).length = (128#8).toNat - 5 - (1 : Bit).toNat ∧
        ∀ k, k < 122 → fullBuffer.fb.read (5 + k) = (fives 122)[k]?) :=
  ⟨rfl, by decide, by decide, by decide, by decide, by decide +kernel, fun k hk => by
    rw [fullBuffer_read (by omega), fives_get hk]⟩

theorem witness_FixedDecodersAlwaysEndOk : ∀ k, k < 5 → (holding frameB).fb.written k = true := by decide

/-! ### The checksum -/

theorem witness_CheckComparesTheStoredChecksum :
    ({ Request.zero with op := 0x7 } : Request).op = 0x7 ∧ ((5#8).toNat < 6 ∧ (129#8).toNat > 128) ∧
      (6 ≤ (6#8).toNat ∧ (6#8).toNat ≤ 128 ∧ (frameA.take 5).length = (6#8).toNat - 1 ∧
        (∀ k, k < 5 → (holding frameA).fb.read k = (frameA.take 5)[k]?) ∧
        (holding frameA).fb.read ((6#8).toNat - 1) = some 0xDA9A ∧ Config.checkFn (frameA.take 5) = 0xDA9A) ∧
      ((holding (frameA.take 5 ++ [0])).fb.read ((6#8).toNat - 1) = some 0 ∧ Config.checkFn (frameA.take 5) ≠ 0) ∧
      ((128#8).toNat ≤ 128 ∧ (fives 127).length = (128#8).toNat - 1 ∧
        (∀ k, k < 127 → fullBuffer.fb.read k = (fives 127)[k]?) ∧
        fullBuffer.fb.read ((128#8).toNat - 1) = some 5) :=
  ⟨rfl, by decide, by decide +kernel, by decide +kernel, by decide, by decide +kernel, fun k hk => by
    rw [fullBuffer_read (by omega), fives_get hk], fullBuffer_read (by decide)⟩

theorem witness_CheckAnswersWhetherAChecksumIsCarried :
    6 ≤ (6#8).toNat ∧ (6#8).toNat ≤ 128 ∧ FramePlaced (holding frameA).fb (6#8).toNat ∧
      6 ≤ (128#8).toNat ∧ (128#8).toNat ≤ 128 ∧ FramePlaced fullBuffer.fb (128#8).toNat :=
  ⟨by decide, by decide, by unfold FramePlaced; decide, by decide, by decide, fullBuffer_placed⟩

/-- A checksum function that meets P4: the exclusive OR of all words. -/
def xorAll (ws : List Word) : Word := ws.foldr (fun w x => w ^^^ x) 0

theorem xorAll_detects : DetectsSingleWord xorAll := by
  intro ws
  induction ws with
  | nil => intro j e h; simp at h
  | cons w ws ih =>
    intro j e hj hne h
    cases j with
    | zero =>
      have h' : e ^^^ xorAll ws = w ^^^ xorAll ws := h
      have := congrArg (· ^^^ xorAll ws) h'
      simp at this
      exact hne (by simp [this])
    | succ j =>
      have h' : w ^^^ xorAll (ws.set j e) = w ^^^ xorAll ws := h
      have := congrArg (w ^^^ ·) h'
      simp at this
      exact ih j e (by simpa using hj) (by simpa using hne) this

/-- The first and the last word of a frame, changed. -/
theorem witness_CheckRejectsOneChangedWord :
    DetectsSingleWord xorAll ∧
    ∃ t, construct xorAll 0x00A 2 0 cfgA 0 [] 1 State.reset = .next t ∧
      (t.resp = some { status := .ok, size := some 6 } ∧ t.fb.read 0 ≠ some 0x00A3 ∧ t.fb.read 5 ≠ some 1 ∧
        (nextWith (exec (.wrw 0 0x00A3) t) fun _ => True) = true ∧
        (nextWith (exec (.wrw 5 1) t) fun _ => True) = true) :=
  ⟨xorAll_detects, exists_next (by decide +kernel)⟩

theorem witness_Chk16DetectsSingleWordChanges :
    0 < frameA.length ∧ frameA[0]? ≠ some 0x00A3 ∧ 5 < frameA.length ∧ frameA[5]? ≠ some 0xDA9B := by decide

/-- The last cyclic word of the largest frame, and the checksum word of the smallest. -/
theorem witness_MachineRejectsOneChangedWord :
    (∃ t, exec largestChecked State.reset = .next t ∧
      (t.resp = some { status := .ok, size := some 128 } ∧ (126#7).toNat < (128#8).toNat ∧
        t.fb.read (126#7).toNat ≠ some 0 ∧ (nextWith (exec (.wrw 126 0) t) fun _ => True) = true)) ∧
    ∃ t, exec smallestChecked State.reset = .next t ∧
      (t.resp = some { status := .ok, size := some 6 } ∧ (5#7).toNat < (6#8).toNat ∧
        t.fb.read (5#7).toNat ≠ some 0 ∧ (nextWith (exec (.wrw 5 0) t) fun _ => True) = true) :=
  ⟨exists_next (by decide +kernel), exists_next (by decide +kernel)⟩

/-! ### The host port and the header words -/

theorem witness_RdwReturnsTheWord :
    ({ Request.zero with op := 0x8 } : Request).op = 0x8 ∧ fullBuffer.fb.read (127#7).toNat = some 5 ∧
      fullBuffer.fb.read (0#7).toNat = some 5 ∧ ({ Request.zero with op := 0x9 } : Request).op = 0x9 := by decide +kernel

theorem witness_DecodersSeeTheWordJustWritten : ∃ t, exec (.wrw 0 0xFFF9) State.reset = .next t ∧ True :=
  exists_next (by decide)

theorem witness_HeaderWordsAreReceivedIntoFirstWord :
    (Instr.hdrIdle 0xFFF 1, 7#3, Kind.idle) ∈
      [(Instr.hdrRead 0xFFF 1, 1#3, Kind.read), (.hdrWrite 0xFFF 1, 2#3, .write), (.hdrAck 0xFFF 1, 3#3, .ack),
        (.hdrReadError 0xFFF 1, 5#3, .readError), (.hdrWriteError 0xFFF 1, 6#3, .writeError),
        (.hdrIdle 0xFFF 1, 7#3, .idle)] := by decide

theorem witness_ReceivedFramesReadBack :
    (List.replicate 128 (5 : Word)).length ≤ 128 ∧ ([] : List Word).length ≤ 128 := by decide +kernel

/-! ### The whole machine -/

/-- For ResponsesCarryExactlyTheirFields, StatusesHaveTheirCauses, FailingOperationsWriteNothing,
OperationsWriteOnlyTheirWords, OperationsAreIdempotent: every operation on a buffer that answers it, with each
status. -/
theorem witness_operations_complete :
    [smallestChecked, .construct 0 4 0 cfgA 0 [] 0, .construct 0 7 0 cfgA 255 (List.replicate 123 0) 1, .getaddr,
      .getcmd, .getseg, .getcfg, .getcyc 128 1, .getcyc 4 0, .check 128, .check 5, .rdw 127, .wrw 127 1,
      .hdrRead 1 0, .hdrWrite 1 0, .hdrAck 1 0, .hdrReadError 1 0, .hdrWriteError 1 0, .hdrIdle 1 0].map
        (fun i => (respOf (exec i fullBuffer)).map Response.status) =
      [some .ok, some .invalidCommand, some .oversizedPayload, some .ok, some .ok, some .ok, some .ok, some .ok,
        some .badLength, some .ok, some .badLength, some .ok, some .ok, some .ok, some .ok, some .ok, some .ok,
        some .ok, some .ok] ∧ fullBuffer.fb.wf := by decide +kernel

theorem witness_StatusesHaveTheirCauses_illegal :
    respOf (perform (.request { Request.zero with op := 10 }) fullBuffer) = some { status := .illegalOp } ∧
      (respOf (perform (.request { Request.zero with op := 9 }) fullBuffer)).map Response.status = some .ok := by
  decide +kernel

theorem witness_FaultsAreUnwrittenReads :
    faultOf (exec (.check 7) (holding frameA)) = some (.unwrittenWord 6) ∧ Reads (.check 7) 6 ∧
      (holding frameA).fb.read 6 = none := ⟨by decide +kernel, by unfold Reads; decide, by decide⟩

/-- The three kinds of clause: a fault at the last index, a write at the last index and a reset, and a buffer that
differs only from index 128 on. -/
theorem witness_StepsNeverLeaveTheBuffer :
    faultOf (step (presentFirst (.line (.rdw 127)) State.reset)) = some (.unwrittenWord 127) ∧
      (∃ t, step (presentFirst (.line (.wrw 127 5)) State.reset) = .next t ∧ t.fb.read 127 = some 5) ∧
      (∃ t, step { holding frameA with pending := [.reset] } = .next t ∧ t.fb.read 0 = none) ∧
      (∀ k, k < 128 → Memory.read [(128, 5)] k = State.reset.fb.read k) ∧ Memory.read [(128, 5)] 128 = some 5 :=
  ⟨by decide, exists_next (by decide), exists_next (by decide),
    fun k hk => by simp [Memory.read, show k ≠ 128 by omega], rfl⟩

theorem witness_OperationsSeeOnlyTheWordsTheyRead :
    let s := holding frameA
    let s' := holding (frameA ++ [9, 9])
    (∀ k, Reads (.check 6) k → s.fb.read k = s'.fb.read k) ∧ s ≠ s' ∧
      (nextWith (exec (.check 6) s) fun _ => True) = true := by
  refine ⟨fun k hk => ?_, by decide, by decide +kernel⟩
  have h : k < 6 := hk.2.2
  clear hk
  revert k
  decide

/-- For StepPerformsTheDecodedInstruction and StepsTakeRequestsInOrder: a free and a claimed block; and one in
which an older response stands, which the step replaces. -/
theorem witness_step_premises :
    let ev : Event := .present 4 (.header 0x1233)
    ({ State.reset with pending := [ev] } : State).owner = none ∧
      ({ State.reset with pending := [ev], owner := some 4 } : State).owner = some 4 ∧
      decode (.header 0x1233) = .ok (.hdrAck 0x123 0) ∧
      (nextWith (step { State.reset with pending := [ev] }) fun _ => True) = true ∧
      (nextWith (step { State.reset with pending := [ev], resp := some { status := .badLength, valid := some 0 } })
        fun t => t.resp = some { status := .ok }) = true := by decide

theorem witness_PlacedTableWordsRunNext :
    decodeTableWord 16 0xFFFF = some (.hdrIdle 0xFFF 1) ∧ decodeTableWord 8 0x9 = some (.wrw 0 0) := by decide

theorem witness_StepsWithNothingPresentedChangeNothing : State.reset.pending = [] := rfl

theorem witness_ReservedSelectCodesAnswerIllegalOp :
    ({ Request.zero with op := 0 } : Request).op.toNat = 0 ∧ 10 ≤ ({ Request.zero with op := 10 } : Request).op.toNat ∧
      10 ≤ ({ Request.zero with op := 15 } : Request).op.toNat := by decide

theorem witness_ReservedHeadersAreReceivedLikeAnyWord :
    (0x8004 : Word).extractLsb' 0 3 = (4 : BitVec 3) ∧ (0x0000 : Word).extractLsb' 0 3 = (0 : BitVec 3) := by decide

theorem witness_RefusalsAreTheNamedOnes :
    (({ State.reset with pending := [.present 1 (.line .getaddr)], owner := some 2 } : State).owner = some 2 ∧
      (1 : Nat) ≠ 2) ∧
    refusalOf (step { State.reset with pending := [.present 1 (.line (.rdw 128))] }) =
      some (.unrepresentable .idxTooWide) := by decide

theorem witness_ResetLeavesEveryWordUnwritten :
    ({ fullBuffer with pending := [.reset] } : State).pending = .reset :: [] := rfl

theorem inv_of_wf {s : State} (h : s.fb.wf) (hr : s.resp = none) (es : List Event) :
    State.Inv { s with pending := es } :=
  ⟨h, fun r hs => by rw [show s.resp = some r from hs] at hr; cases hr⟩

theorem witness_StepsKeepTheInvariant :
    State.Inv { fullBuffer with pending := [.present 0 (.line (.rdw 127))] } ∧
      ∃ t, step { fullBuffer with pending := [.present 0 (.line (.rdw 127))] } = .next t ∧ True :=
  ⟨inv_of_wf fullBuffer_wf rfl _, exists_next (by decide +kernel)⟩

/-- A host that builds a frame and reads its last word; and one that knows of a received frame from the start. -/
theorem witness_HostsKeepingTheirObligationsNeverFault :
    (∀ f, (none : Option HostView) = some f → f.Legal ∧ FramePlaced State.reset.fb f.size) ∧
      KeepsObligations none State.reset [.request (.construct 0x00A 2 0 cfgA 0 [] 0), .request (.rdw 4)] ∧
      (∀ f, some (HostView.mk 128 1) = some f → f.Legal ∧ FramePlaced fullBuffer.fb f.size) ∧
      KeepsObligations (some ⟨128, 1⟩) fullBuffer [.request (.check 128), .request (.getcyc 128 1)] := by
  refine ⟨fun f h => (by cases h), ⟨by decide, trivial, fun t ht => ?_⟩, fun f h => ?_, ?_⟩
  · have : t.resp = some { status := .ok, size := some 5 } := by
      have ht' : construct Config.checkFn 0x00A 2 0 cfgA 0 [] 0 State.reset = .next t := ht
      obtain ⟨_, ⟨h, -⟩ | ⟨_, h, -⟩ | ⟨_, _, rfl⟩⟩ := construct_next ht'
      · exact absurd h (by decide)
      · exact absurd h (by decide)
      · rfl
    refine ⟨rfl, ⟨⟨5, 0⟩, ?_, by decide⟩, fun _ _ => trivial⟩
    simp [viewAfter, viewOfConstruct, this]
  · cases h
    refine ⟨⟨by decide, by decide⟩, ?_⟩
    exact fullBuffer_placed
  · exact ⟨rfl, ⟨_, rfl, rfl, rfl⟩, fun _ _ => ⟨rfl, ⟨_, rfl, rfl, rfl⟩, fun _ _ => trivial⟩⟩

/-- The largest frame a host can know of, and a decoded request that reads its last word, on a free and on a
claimed block; and no known frame with a request that needs none. -/
theorem witness_LawfulStepsKeepTheKnownFrame :
    (∀ f, some (HostView.mk 128 1) = some f → f.Legal ∧ FramePlaced fullBuffer.fb f.size) ∧
      decode (.line (.check 128)) = .ok (.check 128) ∧ Lawful (some ⟨128, 1⟩) (.check 128) ∧
      decode (.line (.rdw 127)) = .ok (.rdw 127) ∧ Lawful (some ⟨128, 1⟩) (.rdw 127) ∧
      decode (.line (.wrw 0 1)) = .ok (.wrw 0 1) ∧ Lawful none (.wrw 0 1) ∧
      State.reset.owner = none ∧ ({ fullBuffer with owner := some 4 } : State).owner = some 4 :=
  ⟨fun f h => by cases h; exact ⟨⟨by decide, by decide⟩, fullBuffer_placed⟩, by decide, ⟨_, rfl, rfl, rfl⟩,
    by decide, ⟨_, rfl, by decide⟩, by decide, trivial, rfl, rfl⟩

end Sys2Proof.Tests
end

section
/-! How a step takes what is presented: the rules that tie `step` to `perform` and `exec`. -/

namespace Sys2Proof.Machine

variable {s : State} {host : Nat} {p : Packet} {rest : List Event}

/-- A free block, or the host's own, is the host's after the claim (R63; log 5). -/
theorem claim_of_free_or_own (h : s.owner = none ∨ s.owner = some host) :
    claim host s = some { s with owner := some host } := by
  obtain ⟨fb, resp, pending, owner⟩ := s
  rcases h with h | h <;> simp only at h <;> subst h <;> simp [claim]

/-- Any other host gets nothing (R63; log 5). -/
theorem claim_of_second_host {k : Nat} (h : s.owner = some k) (hk : k ≠ host) : claim host s = none := by
  simp [claim, h, hk]

/-- Performing what decodes is executing the instruction (R80). -/
theorem perform_of_decode {i : Instr} (h : decode p = .ok i) (s : State) : perform p s = exec i s := by
  simp [perform, h]

/-- Performing what does not decode is answering why (R81, R191 (3)). -/
theorem perform_of_decode_error {e : DecodeError} (h : decode p = .error e) (s : State) :
    perform p s = answerUndecodable e s := by
  simp [perform, h]

/-- A step with a packet presented, by a host the block is free for, performs it (R7, R60). -/
theorem step_present (h : s.pending = .present host p :: rest) (ho : s.owner = none ∨ s.owner = some host) :
    step s = perform p { s with pending := rest, owner := some host } := by
  rw [step_pending h, handle, claim_of_free_or_own (s := { s with pending := rest }) ho]

/-- A step with a packet of a second host presented refuses it (R63). -/
theorem step_second_host {k : Nat} (h : s.pending = .present host p :: rest) (ho : s.owner = some k)
    (hk : k ≠ host) : step s = .refused .secondHost := by
  rw [step_pending h, handle, claim_of_second_host (s := { s with pending := rest }) ho hk]

/-- A step with reset presented next is the reset state, with the rest of the stream (R200; log 6). -/
theorem step_reset (h : s.pending = .reset :: rest) : step s = .next { State.reset with pending := rest } :=
  step_pending h

/-- Settles O49: the claim succeeds, and what decodes is executed. -/
theorem stepPerformsTheDecodedInstruction : Obligations.StepPerformsTheDecodedInstruction := by
  intro s host p rest hp ho
  have hstep := step_present hp ho
  exact ⟨hstep, fun i hi => hstep.trans (perform_of_decode hi _)⟩

/-- Settles O51. -/
theorem stepsWithNothingPresentedChangeNothing : Obligations.StepsWithNothingPresentedChangeNothing :=
  fun _ h => step_idle h

end Sys2Proof.Machine
end

section
/-! No step leaves FB (R12): every operation is confined to the words below 128. The one relation `Confined`
says of two outcomes, of states that differ only from index 128 on, all that O46 asks; the shared reads and
writes have it, so every operation has it. -/

namespace Sys2Proof.Machine

/-- The states are alike but for what FB lists at indexes from 128 on. -/
structure AgreeInside (s s' : State) : Prop where
  resp : s'.resp = s.resp
  pending : s'.pending = s.pending
  owner : s'.owner = s.owner
  read : ∀ k, k < 128 → s'.fb.read k = s.fb.read k

/-- Two outcomes of an operation, the first from a state with frame buffer `fb`, that touched no index from 128
on: the same outcome, next states alike inside FB, the first keeping what `fb` has outside, and a fault only
for an unwritten word inside. -/
inductive Confined (fb : Memory) :
    Host.Outcome State Fault Refusal → Host.Outcome State Fault Refusal → Prop
  | next {t t' : State} (hin : AgreeInside t t') (hout : ∀ k, 128 ≤ k → t.fb.read k = fb.read k) :
      Confined fb (.next t) (.next t')
  | fault {k : Nat} (hk : k < 128) (hr : fb.read k = none) :
      Confined fb (.fault (.unwrittenWord k)) (.fault (.unwrittenWord k))
  | refused (r : Refusal) : Confined fb (.refused r) (.refused r)

theorem Confined.of_next {fb : Memory} {t : State} {o : Host.Outcome State Fault Refusal}
    (h : Confined fb (.next t) o) :
    (∃ t', o = .next t' ∧ AgreeInside t t') ∧ ∀ k, 128 ≤ k → t.fb.read k = fb.read k := by
  cases h with
  | next hin hout => exact ⟨⟨_, rfl, hin⟩, hout⟩

theorem Confined.of_fault {fb : Memory} {f : Fault} {o : Host.Outcome State Fault Refusal}
    (h : Confined fb (.fault f) o) :
    o = .fault f ∧ ∃ k, k < 128 ∧ f = .unwrittenWord k ∧ fb.read k = none := by
  cases h with
  | fault hk hr => exact ⟨rfl, _, hk, rfl, hr⟩

theorem Confined.of_refused {fb : Memory} {r : Refusal} {o : Host.Outcome State Fault Refusal}
    (h : Confined fb (.refused r) o) : o = .refused r := by
  cases h with
  | refused => rfl

theorem AgreeInside.refl (s : State) : AgreeInside s s := ⟨rfl, rfl, rfl, fun _ _ => rfl⟩

section
variable {s s' : State} (h : AgreeInside s s')
include h

/-- A write inside FB changes the words inside alike. -/
theorem AgreeInside.writeList (i : Nat) (ws : List Word) (r : Option Response) :
    AgreeInside { s with fb := s.fb.writeList i ws, resp := r }
      { s' with fb := s'.fb.writeList i ws, resp := r } where
  resp := rfl
  pending := h.pending
  owner := h.owner
  read k hk := by simp only [Memory.read_writeList, h.read k hk]

theorem AgreeInside.setStream (p : List Event) (o : Option Nat) :
    AgreeInside { s with pending := p, owner := o } { s' with pending := p, owner := o } :=
  ⟨h.resp, rfl, rfl, h.read⟩

/-- Writing a list of words that ends inside FB, and answering. -/
theorem confined_writeList {i : Nat} {ws : List Word} (hi : i + ws.length ≤ 128) (r : Option Response) :
    Confined s.fb (.next { s with fb := s.fb.writeList i ws, resp := r })
      (.next { s' with fb := s'.fb.writeList i ws, resp := r }) :=
  .next (h.writeList i ws r) fun _ hk => Memory.read_writeList_outside _ _ (.inr (by omega))

theorem confined_respond (r : Response) : Confined s.fb (respond r s) (respond r s') :=
  confined_writeList h (i := 0) (ws := []) (by simp) (some r)

theorem confined_raise (st : Status) (r : Response) : Confined s.fb (raise st r s) (raise st r s') :=
  confined_respond h _

theorem confined_storeWord {i : Nat} (hi : i < 128) (v : Word) :
    Confined s.fb (storeWord i v s) (storeWord i v s') := by
  rw [storeWord_inside v s hi, storeWord_inside v s' hi]
  exact confined_writeList h (ws := [v]) (by simpa using hi) _

theorem confined_receiveHeader (w : Word) : Confined s.fb (receiveHeader w s) (receiveHeader w s') :=
  confined_storeWord h (i := 0) (by decide) w

/-- Reading one word inside FB: both go on with it, or both stop on it (R201). -/
theorem confined_readWordThen {i : Nat} (hi : i < 128)
    {k k' : Word → Host.Outcome State Fault Refusal} (hk : ∀ w, Confined s.fb (k w) (k' w)) :
    Confined s.fb (readWordThen s i k) (readWordThen s' i k') := by
  cases hr : s.fb.read i with
  | none =>
    rw [readWordThen_none k hi hr, readWordThen_none k' hi ((h.read i hi).trans hr)]
    exact .fault hi hr
  | some w =>
    rw [readWordThen_some k hi hr, readWordThen_some k' hi ((h.read i hi).trans hr)]
    exact hk w

/-- Reading words that end inside FB: both go on with them, or both stop on the first unwritten one (R201). -/
theorem confined_readThen {i n : Nat} (hn : i + n ≤ 128)
    {k k' : List Word → Host.Outcome State Fault Refusal} (hk : ∀ ws, Confined s.fb (k ws) (k' ws)) :
    Confined s.fb (readThen s i n k) (readThen s' i n k') := by
  have hsame : memRead s'.fb i n = memRead s.fb i n := memRead_congr fun j hj => h.read (i + j) (by omega)
  unfold readThen
  rw [hsame]
  cases hr : memRead s.fb i n with
  | ok ws => exact hk ws
  | error f =>
    obtain ⟨j, hj, rfl, hnone, -⟩ := (memRead_error_iff s.fb i n hn f).1 hr
    exact .fault (by omega) hnone

/-- CONSTRUCT: refused, rejected or accepted for the same reason, and an accepted frame ends inside FB (R103). -/
theorem confined_construct (f : List Word → Word) (addr : BitVec 12) (cmd : BitVec 8) (seg : Bit)
    (cfg : Vector Word 4) (n : BitVec 8) (cyc : List Word) (chk : Bit) :
    Confined s.fb (construct f addr cmd seg cfg n cyc chk s) (construct f addr cmd seg cfg n cyc chk s') := by
  by_cases hl : cyc.length = cyclicWordsRead n
  · cases hc : recognized cmd.toNat with
    | false => rw [construct_invalid hl hc, construct_invalid hl hc]; exact confined_respond h _
    | true =>
      by_cases hs : frameSize n chk ≤ Config.capacity
      · rw [construct_accepted hl hc hs, construct_accepted hl hc hs]
        have hlen := cyclic_length_of_fits hl hs
        refine confined_writeList h ?_ _
        simp only [frameSize, Config.headerWords, Config.configWords, Config.capacity] at hs
        simp only [frameWords_length, Vector.length_toList]
        omega
      · rw [construct_oversized hl hc (by omega), construct_oversized hl hc (by omega)]
        exact confined_respond h _
  · rw [construct_refused hl, construct_refused hl]; exact .refused _

theorem confined_getcyc (len : BitVec 8) (haschk : Bit) :
    Confined s.fb (execGetcyc len haschk s) (execGetcyc len haschk s') := by
  unfold execGetcyc
  split
  · exact confined_raise h _ _
  · rename_i hlen
    simp only [Config.capacity] at hlen
    exact confined_readThen h (by simp only [Config.cyclicBase]; omega) fun ws => confined_respond h _

theorem confined_verify (f : List Word → Word) (len : BitVec 8) :
    Confined s.fb (verify f len s) (verify f len s') := by
  unfold verify
  split
  · exact confined_raise h _ _
  · rename_i hlen
    simp only [Config.capacity] at hlen
    exact confined_readThen h (by omega) fun ws =>
      confined_readWordThen h (by omega) fun w => confined_respond h _

/-- Every index an operation touches is below 128 (R12). -/
theorem confined_exec (i : Instr) : Confined s.fb (exec i s) (exec i s') := by
  have ofHeader (r : Word → Response) : Confined s.fb (readWordThen s 0 fun w => respond (r w) s)
      (readWordThen s' 0 fun w => respond (r w) s') :=
    confined_readWordThen h (by decide) fun w => confined_respond h _
  cases i with
  | construct addr cmd seg cfg n cyc chk => exact confined_construct h _ addr cmd seg cfg n cyc chk
  | getaddr => exact ofHeader _
  | getcmd => exact ofHeader _
  | getseg => exact ofHeader _
  | getcfg => exact confined_readThen h (by decide) fun ws => confined_respond h _
  | getcyc len haschk => exact confined_getcyc h len haschk
  | check len => exact confined_verify h _ len
  | rdw idx => exact confined_readWordThen h idx.isLt fun w => confined_respond h _
  | wrw idx data => exact confined_storeWord h idx.isLt data
  | hdrRead addr seg => exact confined_receiveHeader h _
  | hdrWrite addr seg => exact confined_receiveHeader h _
  | hdrAck addr seg => exact confined_receiveHeader h _
  | hdrReadError addr seg => exact confined_receiveHeader h _
  | hdrWriteError addr seg => exact confined_receiveHeader h _
  | hdrIdle addr seg => exact confined_receiveHeader h _

theorem confined_perform (p : Packet) : Confined s.fb (perform p s) (perform p s') := by
  cases hd : decode p with
  | ok i => rw [perform_of_decode hd, perform_of_decode hd]; exact confined_exec h i
  | error e =>
    rw [perform_of_decode_error hd, perform_of_decode_error hd]
    cases e with
    | illegalOp op => exact confined_raise h _ _
    | reservedCommand w => exact confined_receiveHeader h w
    | unrepresentable why => exact .refused _

/-- A step is a reset, the same one whatever FB holds, or it is confined to FB. -/
theorem step_reset_or_confined :
    (∃ rest, s.pending = .reset :: rest ∧ step s = .next { State.reset with pending := rest } ∧
      step s' = .next { State.reset with pending := rest }) ∨ Confined s.fb (step s) (step s') := by
  cases hp : s.pending with
  | nil =>
    rw [step_idle hp, step_idle (h.pending.trans hp)]
    exact .inr (.next h fun _ _ => rfl)
  | cons ev rest =>
    have hp' := h.pending.trans hp
    cases ev with
    | reset => exact .inl ⟨rest, rfl, step_reset hp, step_reset hp'⟩
    | present host p =>
      right
      by_cases ho : s.owner = none ∨ s.owner = some host
      · rw [step_present hp ho, step_present hp' (by rwa [h.owner])]
        exact confined_perform (h.setStream rest (some host)) p
      · obtain ⟨k, hk⟩ := Option.ne_none_iff_exists'.1 (not_or.1 ho).1
        have hne : k ≠ host := fun e => ho (.inr (e ▸ hk))
        rw [step_second_host hp hk hne, step_second_host hp' (h.owner.trans hk) hne]
        exact .refused _

end

/-- Settles O46: a step that is no reset is confined to FB, in comparison with itself for the faults and the
words from 128 on, and with the same state under another FB for what stands there. -/
theorem stepsNeverLeaveTheBuffer : Obligations.StepsNeverLeaveTheBuffer := by
  refine ⟨fun s f hs => ?fault, fun s t hs => ?next, fun s fb hfb => ?other⟩
  case fault =>
    rcases step_reset_or_confined (.refl s) with ⟨rest, -, hreset, -⟩ | hc
    · rw [hreset] at hs; cases hs
    · rw [hs] at hc; exact hc.of_fault.2
  case next =>
    rcases step_reset_or_confined (.refl s) with ⟨rest, hp, hreset, -⟩ | hc
    · rw [hreset] at hs; cases hs
      exact .inr ⟨⟨rest, hp⟩, fun _ => rfl⟩
    · rw [hs] at hc; exact .inl hc.of_next.2
  case other =>
    have h : AgreeInside s { s with fb := fb } := ⟨rfl, rfl, rfl, hfb⟩
    rcases step_reset_or_confined h with ⟨rest, -, hreset, hreset'⟩ | hc
    · rw [hreset, hreset']
      exact ⟨fun t ht => ⟨t, ht, rfl, rfl, rfl, fun _ _ => rfl⟩, fun _ => id, fun _ => id⟩
    · refine ⟨fun t ht => ?_, fun f hf => (hf ▸ hc).of_fault.1, fun r hr => (hr ▸ hc).of_refused⟩
      obtain ⟨⟨t', ht', hagree⟩, -⟩ := (ht ▸ hc).of_next
      exact ⟨t', ht', hagree.resp, hagree.pending, hagree.owner, hagree.read⟩

end Sys2Proof.Machine
end

section
/-! Decoding undoes encoding, also through the bits of the packed request record (spec/30_encoding.md R82;
log 9). -/

namespace Sys2Proof

/-- Settles O3: one round trip per row of the opcode table. -/
theorem decodeOfEncodeIsTheInstruction : Obligations.DecodeOfEncodeIsTheInstruction := fun i => by
  cases i with
  | construct addr cmd seg cfg n cyc chk => exact Laws.RoundTrip.construct addr cmd seg cfg n cyc chk
  | getaddr => exact Laws.RoundTrip.getaddr
  | getcmd => exact Laws.RoundTrip.getcmd
  | getseg => exact Laws.RoundTrip.getseg
  | getcfg => exact Laws.RoundTrip.getcfg
  | getcyc len haschk => exact Laws.RoundTrip.getcyc len haschk
  | check len => exact Laws.RoundTrip.check len
  | rdw idx => exact Laws.RoundTrip.rdw idx
  | wrw idx data => exact Laws.RoundTrip.wrw idx data
  | hdrRead addr seg => exact Laws.RoundTrip.hdrRead addr seg
  | hdrWrite addr seg => exact Laws.RoundTrip.hdrWrite addr seg
  | hdrAck addr seg => exact Laws.RoundTrip.hdrAck addr seg
  | hdrReadError addr seg => exact Laws.RoundTrip.hdrReadError addr seg
  | hdrWriteError addr seg => exact Laws.RoundTrip.hdrWriteError addr seg
  | hdrIdle addr seg => exact Laws.RoundTrip.hdrIdle addr seg

/-- One value per width, each within its width. -/
abbrev FieldsFit (ws vs : List Nat) : Prop := List.Forall₂ (fun w v => v < 2 ^ w) ws vs

/-- Fields that fit their widths come back out of the number they are packed into. -/
theorem unpackFields_packFields {ws vs : List Nat} (h : FieldsFit ws vs) :
    unpackFields ws (packFields ws vs) = vs := by
  induction h with
  | nil => rfl
  | @cons w v ws vs hv _ ih =>
    have hlow : (v + 2 ^ w * packFields ws vs) % 2 ^ w = v := by
      rw [Nat.add_mul_mod_self_left, Nat.mod_eq_of_lt hv]
    have hrest : (v + 2 ^ w * packFields ws vs) / 2 ^ w = packFields ws vs := by
      rw [Nat.add_mul_div_left _ _ (Nat.two_pow_pos w), Nat.div_eq_of_lt hv, Nat.zero_add]
    rw [packFields, unpackFields, hlow, hrest, ih]

/-- The words of a vector fit as many fields of 16 bits. -/
theorem fieldsFit_words {k : Nat} (v : Vector Word k) :
    FieldsFit (List.replicate k 16) (v.toList.map BitVec.toNat) := by
  refine List.forall₂_iff_get.2 ⟨by simp, fun j _ _ => ?_⟩
  simpa using (v[j]'(by simp_all)).isLt

/-- Every value of a request record fits its field (R33). -/
theorem fieldsFit_values (r : Request) : FieldsFit requestWidths r.values := by
  have single {w : Nat} (b : BitVec w) {ws vs : List Nat} (h : FieldsFit ws vs) :
      FieldsFit (w :: ws) (b.toNat :: vs) := .cons b.isLt h
  have hfirst := single r.op <| single r.addr <| single r.cmd <| single r.seg .nil
  have hlast := single r.chk <| single r.len <| single r.haschk <| single r.idx <| single r.data .nil
  have hcount := single r.n .nil
  exact List.rel_append (List.rel_append (List.rel_append (List.rel_append hfirst (fieldsFit_words r.cfg)) hcount)
    (fieldsFit_words r.cyc)) hlast

/-- The words of a vector, through their values. -/
theorem wordField_ofNat_toNat {k : Nat} (v : Vector Word k) :
    wordField k ((v.toList.map BitVec.toNat).map (BitVec.ofNat 16)) = v := by
  have : (v.toList.map BitVec.toNat).map (BitVec.ofNat 16) = v.toList := by
    simp [Function.comp_def]
  rw [this, wordField_toList_self]

/-- A request record comes back out of its packed bits (log 9). -/
theorem Request.ofBits_toBits (r : Request) : Request.ofBits r.toBits = r := by
  have hvs : unpackFields requestWidths r.toBits = r.values := unpackFields_packFields (fieldsFit_values r)
  have hcfg : (r.values.drop 4).take 4 = r.cfg.toList.map BitVec.toNat := by
    simp [Request.values]
  have hcyc : (r.values.drop 9).take 123 = r.cyc.toList.map BitVec.toNat := by
    simp [Request.values, List.drop_append, List.take_append]
  rw [Request.ofBits, hvs]
  simp only [hcfg, hcyc, wordField_ofNat_toNat]
  simp [Request.values]

/-- The packet of a table word that is the packed packet is that packet, unless it is text. -/
theorem tablePacket_bits {p : Packet} (h : ∀ l, p ≠ .line l) : tablePacket p.bits.1 p.bits.2 = p := by
  cases p with
  | request r => simp [Packet.bits, tablePacket, requestBits, headerBits, Request.ofBits_toBits]
  | header w => simp [Packet.bits, tablePacket]
  | line l => exact absurd rfl (h l)

/-- An instruction is never encoded as text. -/
theorem encode_ne_line (i : Instr) (l : Line) : encode i ≠ .line l := by
  cases i <;> exact Packet.noConfusion

/-- Settles O4: the packed bits give the packet back, which decodes by O3. -/
theorem decodeOfPackedBitsIsTheInstruction : Obligations.DecodeOfPackedBitsIsTheInstruction := fun i hi => by
  rw [decodeTableWord, tablePacket_bits (encode_ne_line i), decodeOfEncodeIsTheInstruction i hi]

end Sys2Proof
end

section
/-! What an operation can do, said once (spec/10_state.md R34 to R36): `Performed` relates the outcomes of one
operation from two states that agree on the words it reads. Its response is the operation's own, it stores the
same words, exactly those it writes, and nothing else changes. The statements about responses, frames, reads and
the invariant follow from it. -/

namespace Sys2Proof.Machine

/-- The response an operation gives where it completes: the fields R34 names for it, with the relations R34 and
R123 ask of them. -/
def AnswerOf (i : Instr) (r : Response) : Prop :=
  match i with
  | .construct _ _ _ _ _ _ _ => ∃ st z, z ≤ 128 ∧ r = { status := st, size := some (BitVec.ofNat 8 z) }
  | .getaddr => ∃ a, r = { status := .ok, addr := some a }
  | .getcmd => ∃ c, r =
      { status := .ok, cmd := some c, recognized := some (b2w (recognized c.toNat)), kind := some (kind c.toNat) }
  | .getseg => ∃ g, r = { status := .ok, seg := some g }
  | .getcfg | .getcyc _ _ => ∃ st ws, ws.length ≤ 123 ∧
      r = { status := st, size := some (BitVec.ofNat 8 ws.length), words := some ws }
  | .check _ => ∃ st v, r = { status := st, valid := some v }
  | .rdw _ => ∃ w, r = { status := .ok, data := some w }
  | .wrw _ _ | .hdrRead _ _ | .hdrWrite _ _ | .hdrAck _ _ | .hdrReadError _ _ | .hdrWriteError _ _
  | .hdrIdle _ _ => r = { status := .ok }

/-- The words `ws` from index `b` on are those an operation writes, all inside FB. -/
structure StoresOf (i : Instr) (b : Nat) (ws : List Word) : Prop where
  inside : b + ws.length ≤ 128
  writes : ∀ k, Writes i k ↔ b ≤ k ∧ k < b + ws.length

/-- Outcomes of one operation from two states: both complete with the same response and the same words stored,
and nothing else changed, or both stop for the same reason. -/
inductive Performed (i : Instr) (s s' : State) :
    Host.Outcome State Fault Refusal → Host.Outcome State Fault Refusal → Prop
  | next {b : Nat} {ws : List Word} {r : Response} (hs : StoresOf i b ws) (hr : AnswerOf i r) :
      Performed i s s' (.next { s with fb := s.fb.writeList b ws, resp := some r })
        (.next { s' with fb := s'.fb.writeList b ws, resp := some r })
  | fault (f : Fault) : Performed i s s' (.fault f) (.fault f)
  | refused (r : Refusal) : Performed i s s' (.refused r) (.refused r)

theorem Performed.of_next {i : Instr} {s s' t : State} {o : Host.Outcome State Fault Refusal}
    (h : Performed i s s' (.next t) o) :
    ∃ b ws r, StoresOf i b ws ∧ AnswerOf i r ∧ t = { s with fb := s.fb.writeList b ws, resp := some r } ∧
      o = .next { s' with fb := s'.fb.writeList b ws, resp := some r } := by
  cases h with
  | next hs hr => exact ⟨_, _, _, hs, hr, rfl, rfl⟩

theorem Performed.of_fault {i : Instr} {s s' : State} {f : Fault} {o : Host.Outcome State Fault Refusal}
    (h : Performed i s s' (.fault f) o) : o = .fault f := by
  cases h with
  | fault => rfl

theorem Performed.of_refused {i : Instr} {s s' : State} {r : Refusal} {o : Host.Outcome State Fault Refusal}
    (h : Performed i s s' (.refused r) o) : o = .refused r := by
  cases h with
  | refused => rfl

section
variable {i : Instr} {s s' : State}

theorem storesOf_nothing (hw : ∀ k, ¬ Writes i k) : StoresOf i 0 [] where
  inside := by simp
  writes k := by simp [hw k]

theorem performed_respond (hw : ∀ k, ¬ Writes i k) {r : Response} (hr : AnswerOf i r) :
    Performed i s s' (respond r s) (respond r s') :=
  .next (storesOf_nothing hw) hr

theorem performed_storeWord (i : Instr) {b : Nat} (hb : b < 128) (hw : ∀ k, Writes i k ↔ k = b)
    (hr : AnswerOf i { status := .ok }) (v : Word) :
    Performed i s s' (storeWord b v s) (storeWord b v s') := by
  rw [storeWord_inside v s hb, storeWord_inside v s' hb]
  exact .next (ws := [v]) ⟨by simpa using hb, fun k => by rw [hw, List.length_singleton]; omega⟩ hr

theorem performed_receiveHeader (i : Instr) (hw : ∀ k, Writes i k ↔ k = 0) (hr : AnswerOf i { status := .ok })
    (w : Word) : Performed i s s' (receiveHeader w s) (receiveHeader w s') :=
  performed_storeWord i (by decide) hw hr w

/-- Reading a word both states have alike: both go on with it, or both stop on it (R201). -/
theorem performed_readWordThen {b : Nat} (h : s.fb.read b = s'.fb.read b)
    {k k' : Word → Host.Outcome State Fault Refusal} (hk : ∀ w, Performed i s s' (k w) (k' w)) :
    Performed i s s' (readWordThen s b k) (readWordThen s' b k') := by
  unfold readWordThen
  rw [h]
  split
  · cases s'.fb.read b with
    | none => exact .fault _
    | some w => exact hk w
  · exact .fault _

/-- Reading words both states have alike: both go on with them, or both stop on the first unwritten one (R201). -/
theorem performed_readThen {b n : Nat} (h : ∀ j, j < n → s.fb.read (b + j) = s'.fb.read (b + j))
    {k k' : List Word → Host.Outcome State Fault Refusal}
    (hk : ∀ ws, ws.length = n → Performed i s s' (k ws) (k' ws)) :
    Performed i s s' (readThen s b n k) (readThen s' b n k') := by
  unfold readThen
  rw [memRead_congr h]
  cases hr : memRead s'.fb b n with
  | ok ws => exact hk ws ((memRead_ok_iff ..).1 hr).2.1
  | error f => exact .fault f

/-- CONSTRUCT: refused, rejected or accepted for the same reason, with the same frame (R104). -/
theorem performed_construct (addr : BitVec 12) (cmd : BitVec 8) (seg : Bit) (cfg : Vector Word 4) (n : BitVec 8)
    (cyc : List Word) (chk : Bit) :
    Performed (.construct addr cmd seg cfg n cyc chk) s s' (execConstruct addr cmd seg cfg n cyc chk s)
      (execConstruct addr cmd seg cfg n cyc chk s') := by
  unfold execConstruct
  by_cases hl : cyc.length = cyclicWordsRead n
  · cases hc : recognized cmd.toNat with
    | false =>
      rw [construct_invalid hl hc, construct_invalid hl hc]
      exact performed_respond (by simp [Writes, hc]) ⟨_, 0, by decide, rfl⟩
    | true =>
      by_cases hs : frameSize n chk ≤ Config.capacity
      · rw [construct_accepted hl hc hs, construct_accepted hl hc hs]
        have hlen (f : List Word → Word) (h : Word) :
            (frameWords f h cfg.toList cyc chk).length = frameSize n chk := by
          simp [frameWords_length, frameSize, cyclic_length_of_fits hl hs]
        exact .next ⟨by simpa [hlen] using hs, by simp [Writes, hc, hs, hlen]⟩ ⟨_, _, hs, rfl⟩
      · rw [construct_oversized hl hc (by omega), construct_oversized hl hc (by omega)]
        exact performed_respond (by simp [Writes, hs]) ⟨_, 0, by decide, rfl⟩
  · rw [construct_refused hl, construct_refused hl]; exact .refused _

theorem performed_getcyc {len : BitVec 8} {haschk : Bit}
    (h : ∀ k, Reads (.getcyc len haschk) k → s.fb.read k = s'.fb.read k) :
    Performed (.getcyc len haschk) s s' (execGetcyc len haschk s) (execGetcyc len haschk s') := by
  unfold execGetcyc
  split
  · exact performed_respond (fun _ => id) ⟨_, [], by simp, rfl⟩
  · rename_i hlen
    simp only [Config.capacity] at hlen
    refine performed_readThen (fun j hj => h _ ⟨by simp; omega, by simp, by simp; omega⟩) fun ws hws => ?_
    rw [← hws]
    exact performed_respond (fun _ => id) ⟨_, ws, by omega, rfl⟩

theorem performed_check {len : BitVec 8} (h : ∀ k, Reads (.check len) k → s.fb.read k = s'.fb.read k) :
    Performed (.check len) s s' (execCheck len s) (execCheck len s') := by
  unfold execCheck verify
  split
  · exact performed_respond (fun _ => id) ⟨_, _, rfl⟩
  · rename_i hlen
    simp only [Config.capacity] at hlen
    have hsame (k : Nat) (hk : k < len.toNat) : s.fb.read k = s'.fb.read k := h k ⟨by omega, by simp; omega, hk⟩
    exact performed_readThen (fun j hj => hsame _ (by omega)) fun ws _ =>
      performed_readWordThen (hsame _ (by omega)) fun w => performed_respond (fun _ => id) ⟨_, _, rfl⟩

/-- All an operation can do, in two states that agree on the words it reads (R34 to R36). -/
theorem performed_exec (h : ∀ k, Reads i k → s.fb.read k = s'.fb.read k) :
    Performed i s s' (exec i s) (exec i s') := by
  cases i with
  | construct addr cmd seg cfg n cyc chk => exact performed_construct addr cmd seg cfg n cyc chk
  | getaddr => exact performed_readWordThen (h 0 rfl) fun w => performed_respond (fun _ => id) ⟨_, rfl⟩
  | getcmd => exact performed_readWordThen (h 0 rfl) fun w => performed_respond (fun _ => id) ⟨_, rfl⟩
  | getseg => exact performed_readWordThen (h 0 rfl) fun w => performed_respond (fun _ => id) ⟨_, rfl⟩
  | getcfg =>
    exact performed_readThen (fun j hj => h _ ⟨Nat.le_add_right 1 j, by simp at *; omega⟩) fun ws hws =>
      performed_respond (fun _ => id) ⟨_, ws, by simp at hws; omega, by rw [hws]; rfl⟩
  | getcyc len haschk => exact performed_getcyc h
  | check len => exact performed_check h
  | rdw idx => exact performed_readWordThen (h _ rfl) fun w => performed_respond (fun _ => id) ⟨_, rfl⟩
  | wrw idx data => exact performed_storeWord (.wrw idx data) idx.isLt (fun _ => .rfl) rfl data
  | hdrRead addr seg => exact performed_receiveHeader (.hdrRead addr seg) (fun _ => .rfl) rfl _
  | hdrWrite addr seg => exact performed_receiveHeader (.hdrWrite addr seg) (fun _ => .rfl) rfl _
  | hdrAck addr seg => exact performed_receiveHeader (.hdrAck addr seg) (fun _ => .rfl) rfl _
  | hdrReadError addr seg => exact performed_receiveHeader (.hdrReadError addr seg) (fun _ => .rfl) rfl _
  | hdrWriteError addr seg => exact performed_receiveHeader (.hdrWriteError addr seg) (fun _ => .rfl) rfl _
  | hdrIdle addr seg => exact performed_receiveHeader (.hdrIdle addr seg) (fun _ => .rfl) rfl _

/-- Everything an operation can do where it completes: its response, and the words it writes. -/
theorem exec_next {t : State} (h : exec i s = .next t) :
    ∃ b ws r, StoresOf i b ws ∧ AnswerOf i r ∧ t = { s with fb := s.fb.writeList b ws, resp := some r } := by
  obtain ⟨b, ws, r, hs, hr, ht, -⟩ := (h ▸ performed_exec (i := i) (s := s) (s' := s) fun _ _ => rfl).of_next
  exact ⟨b, ws, r, hs, hr, ht⟩

end

/-- Settles O47. -/
theorem operationsSeeOnlyTheWordsTheyRead : Obligations.OperationsSeeOnlyTheWordsTheyRead := by
  intro i s s' hreads
  have hp := performed_exec hreads
  refine ⟨fun t ht => ?_, fun f hf => (hf ▸ hp).of_fault, fun r hr => (hr ▸ hp).of_refused⟩
  obtain ⟨b, ws, r, hs, -, rfl, ht'⟩ := (ht ▸ hp).of_next
  refine ⟨_, ht', rfl, fun k hk => ?_⟩
  simp only [Memory.read_writeList, if_pos ((hs.writes k).1 hk)]

/-- Settles O44: only the stored words change, and where nothing is written none are stored. -/
theorem operationsWriteOnlyTheirWords : Obligations.OperationsWriteOnlyTheirWords := by
  intro i s t ht
  obtain ⟨b, ws, r, hs, -, rfl⟩ := exec_next ht
  refine ⟨fun k hk => ?_, fun hnone => ?_, rfl, rfl⟩
  · exact (Memory.read_writeList ..).trans (if_neg (mt (hs.writes k).2 hk))
  · have hempty : ws = [] := by
      have := mt (hs.writes b).2 (hnone b)
      exact List.length_eq_zero_iff.1 (by omega)
    rw [hempty]; rfl

/-- Settles O41: each operation's response has the fields of `AnswerOf`. -/
theorem responsesCarryExactlyTheirFields : Obligations.ResponsesCarryExactlyTheirFields := by
  intro i s t ht
  obtain ⟨b, ws, r, -, hr, rfl⟩ := exec_next ht
  refine ⟨r, rfl, ?_⟩
  cases i with
  | construct => obtain ⟨_, _, -, rfl⟩ := hr; simp [Instr.mnemonic]
  | getaddr => obtain ⟨_, rfl⟩ := hr; simp [Instr.mnemonic]
  | getcmd => obtain ⟨_, rfl⟩ := hr; simp [Instr.mnemonic]
  | getseg => obtain ⟨_, rfl⟩ := hr; simp [Instr.mnemonic]
  | getcfg => obtain ⟨_, _, -, rfl⟩ := hr; simp [Instr.mnemonic]
  | getcyc => obtain ⟨_, _, -, rfl⟩ := hr; simp [Instr.mnemonic]
  | check => obtain ⟨_, _, rfl⟩ := hr; simp [Instr.mnemonic]
  | rdw => obtain ⟨_, rfl⟩ := hr; simp [Instr.mnemonic]
  | _ => cases hr; simp [Instr.mnemonic]

/-- A response with a status alone is one R34 allows. -/
theorem responseOk_status (st : Status) : ResponseOk { status := st } := by simp [ResponseOk]

/-- Every operation's response is one R34 allows. -/
theorem AnswerOf.responseOk {i : Instr} {r : Response} (hr : AnswerOf i r) : ResponseOk r := by
  cases i with
  | construct => obtain ⟨_, z, hz, rfl⟩ := hr; simp [ResponseOk]; omega
  | getcmd => obtain ⟨_, rfl⟩ := hr; simp [ResponseOk]
  | getaddr => obtain ⟨_, rfl⟩ := hr; simp [ResponseOk]
  | getseg => obtain ⟨_, rfl⟩ := hr; simp [ResponseOk]
  | getcfg => obtain ⟨_, ws, hws, rfl⟩ := hr; simp [ResponseOk]; omega
  | getcyc => obtain ⟨_, ws, hws, rfl⟩ := hr; simp [ResponseOk]; omega
  | check => obtain ⟨_, _, rfl⟩ := hr; simp [ResponseOk]
  | rdw => obtain ⟨_, rfl⟩ := hr; simp [ResponseOk]
  | _ => cases hr; exact responseOk_status .ok

/-- Storing words inside FB and answering as R34 allows keeps the invariant. -/
theorem State.Inv.store {s : State} (h : s.Inv) {b : Nat} {ws : List Word} (hb : b + ws.length ≤ 128)
    {r : Response} (hr : ResponseOk r) : State.Inv { s with fb := s.fb.writeList b ws, resp := some r } :=
  ⟨Memory.writeList_wf h.1 hb, fun _ he => Option.some.inj he ▸ hr⟩

/-- Performing a packet keeps the invariant, whether it decodes or not. -/
theorem perform_inv {p : Packet} {s t : State} (h : s.Inv) (ht : perform p s = .next t) : t.Inv := by
  cases hd : decode p with
  | ok i =>
    rw [perform_of_decode hd] at ht
    obtain ⟨b, ws, r, hs, hr, rfl⟩ := exec_next ht
    exact h.store hs.inside hr.responseOk
  | error e =>
    rw [perform_of_decode_error hd] at ht
    cases e with
    | illegalOp op =>
      rw [raise_next ht]
      exact h.store (b := 0) (ws := []) (by simp) (responseOk_status _)
    | reservedCommand w =>
      cases (receiveHeader_eq w s).symm.trans ht
      exact h.store (b := 0) (ws := [w]) (by simp) (responseOk_status _)
    | unrepresentable why => cases ht

/-- The invariant says nothing of the stream or the owner. -/
theorem State.Inv.setStream {s : State} (h : s.Inv) (p : List Event) (o : Option Nat) :
    State.Inv { s with pending := p, owner := o } := h

/-- Settles O57. -/
theorem resetStateMeetsTheInvariant : Obligations.ResetStateMeetsTheInvariant :=
  ⟨⟨.nil, fun _ h => nomatch h⟩, fun _ h => nomatch h⟩

/-- Settles O58: an idle step, a reset, or a packet of the block's own host performed. -/
theorem stepsKeepTheInvariant : Obligations.StepsKeepTheInvariant := by
  intro s t h ht
  cases hp : s.pending with
  | nil => cases (step_idle hp).symm.trans ht; exact h
  | cons ev rest =>
    rw [step_pending hp] at ht
    cases ev with
    | reset => cases ht; exact resetStateMeetsTheInvariant
    | present host p =>
      simp only [handle] at ht
      split at ht
      · cases ht
      · rename_i u hu
        rw [(claim_some hu).1] at ht
        exact perform_inv (h.setStream rest (some host)) ht

end Sys2Proof.Machine
end

section
/-! The sizes of the frames CONSTRUCT builds, and the bytes of a frame on the wire (spec/20_memory.md R52, R55,
R56). -/

namespace Sys2Proof.Machine

/-- CONSTRUCT answers OK only for a frame that fits, and its size is the frame's (R103, R106). -/
theorem construct_ok {f : List Word → Word} {addr : BitVec 12} {cmd : BitVec 8} {seg : Bit} {cfg : Vector Word 4}
    {n : BitVec 8} {cyc : List Word} {chk : Bit} {s t : State} {r : Response}
    (h : construct f addr cmd seg cfg n cyc chk s = .next t) (hr : t.resp = some r) (hok : r.status = .ok) :
    frameSize n chk ≤ Config.capacity ∧ r.size = some (BitVec.ofNat 8 (frameSize n chk)) := by
  obtain ⟨-, ⟨-, rfl⟩ | ⟨-, -, rfl⟩ | ⟨-, hs, rfl⟩⟩ := construct_next h
  · cases hr; cases hok
  · cases hr; cases hok
  · cases hr; exact ⟨hs, rfl⟩

/-- Settles O16: the answered size is that of a frame that fits, so its 8 bits hold it. -/
theorem frameSizesAreBounded : Obligations.FrameSizesAreBounded := by
  intro addr cmd seg cfg n cyc chk s t r h hr hok
  obtain ⟨hfit, hsize⟩ := construct_ok (f := Config.checkFn) h hr hok
  simp only [frameSize, Config.capacity, Config.headerWords, Config.configWords] at hfit hsize
  have hz : (BitVec.ofNat 8 (1 + 4 + n.toNat + chk.toNat)).toNat = 1 + 4 + n.toNat + chk.toNat :=
    Nat.mod_eq_of_lt (by omega)
  refine ⟨_, hsize, hz, by omega, by omega, ?plain, ?checked⟩
  case plain => rintro rfl; omega
  case checked =>
    rintro rfl
    have hbit : (1 : Bit).toNat = 1 := rfl
    omega

/-- A word is its high byte followed by its low byte (R142). -/
theorem highByte_append_lowByte (w : Word) : w.extractLsb' 8 8 ++ w.extractLsb' 0 8 = w := by
  have happend : w.extractLsb' (0 + 8) 8 ++ w.extractLsb' 0 8 = w.extractLsb' 0 16 :=
    BitVec.extractLsb'_append_extractLsb'_eq_extractLsb' rfl
  simpa using happend

/-- The bytes of one word, at the head of what the wire carries, read back as that word in the same order (R56). -/
theorem wireWords_wordBytes_append (o : Config.ByteOrder) (w : Word) (bs : List Byte) :
    wireWords o (wordBytes o w ++ bs) = (wireWords o bs).map (w :: ·) := by
  cases o <;> simp [wordBytes, bytesHighFirst, wireWords, highByte_append_lowByte]

theorem wireWords_wireBytes (o : Config.ByteOrder) (ws : List Word) : wireWords o (wireBytes o ws) = some ws := by
  induction ws with
  | nil => rfl
  | cons w ws ih =>
    calc wireWords o (wireBytes o (w :: ws))
        = (wireWords o (wireBytes o ws)).map (w :: ·) := wireWords_wordBytes_append o w _
      _ = some (w :: ws) := by rw [ih]; rfl

theorem wordBytes_length (o : Config.ByteOrder) (w : Word) : (wordBytes o w).length = 2 := by
  cases o <;> rfl

theorem wireBytes_length (o : Config.ByteOrder) (ws : List Word) : (wireBytes o ws).length = 2 * ws.length := by
  simp [wireBytes, List.length_flatMap, wordBytes_length, Nat.mul_comm]

/-- Settles O40: in either order, so in the OPEN one (log 12). -/
theorem wireBytesReadBack : Obligations.WireBytesReadBack :=
  ⟨wireWords_wireBytes, wireWords_wireBytes Config.wireByteOrder, wireBytes_length⟩

end Sys2Proof.Machine
end

section
/-! Repeating an operation (spec/20_memory.md R58): it reads no word it writes, so it reads the same again, and
writing the same words again changes nothing. -/

namespace Sys2Proof

/-- Writing a list of words twice is writing it once. -/
theorem Memory.writeList_writeList_same {m : Memory} (h : m.wf) {i : Nat} {ws : List Word}
    (hi : i + ws.length ≤ Config.capacity) : (m.writeList i ws).writeList i ws = m.writeList i ws := by
  have hw := writeList_wf h hi
  refine wf_ext (writeList_wf hw hi) hw fun k => ?_
  simp only [read_writeList]
  split <;> rfl

namespace Machine

/-- No operation reads a word that it writes (R36). -/
theorem not_writes_of_reads {i : Instr} {k : Nat} (h : Reads i k) : ¬ Writes i k := by
  cases i with
  | construct | wrw | hdrRead | hdrWrite | hdrAck | hdrReadError | hdrWriteError | hdrIdle => exact h.elim
  | getaddr | getcmd | getseg | getcfg | getcyc | check | rdw => exact id

/-- Settles O48: the repeated operation reads the same words, and stores what already stands there. -/
theorem operationsAreIdempotent : Obligations.OperationsAreIdempotent := by
  intro i s t hwf ht
  have hreads (k : Nat) (hk : Reads i k) : s.fb.read k = t.fb.read k :=
    ((operationsWriteOnlyTheirWords i s t ht).1 k (not_writes_of_reads hk)).symm
  obtain ⟨b, ws, r, hs, -, rfl, hagain⟩ := (ht ▸ performed_exec hreads).of_next
  rw [hagain]
  simp only [Memory.writeList_writeList_same hwf hs.inside]

end Machine

end Sys2Proof
end

section
/-! A line that fits has a request record (spec/30_encoding.md R85, R86), and what decodes is well-formed (R82). -/

namespace Sys2Proof

open Machine

/-- A value within a field's width has that field (R85). -/
theorem fitField_of_lt {width v : Nat} (h : v < 2 ^ width) (why : Unrepresentable) :
    fitField width v why = .ok (BitVec.ofNat width v) :=
  if_pos h

/-- Assembling goes on with a value within its field's width. -/
theorem fitField_bind {width v : Nat} (h : v < 2 ^ width) {why : Unrepresentable} {α : Type}
    {k : BitVec width → Except Unrepresentable α} : (fitField width v why >>= k) = k (BitVec.ofNat width v) := by
  rw [fitField_of_lt h]; rfl

/-- Values within 16 bits are words (R85). -/
theorem fitWords_of_le {vs : List Nat} (h : ∀ v ∈ vs, v ≤ 0xFFFF) :
    fitWords vs = .ok (vs.map (BitVec.ofNat 16)) := by
  induction vs with
  | nil => rfl
  | cons v vs ih =>
    obtain ⟨hv, hvs⟩ := List.forall_mem_cons.1 h
    simp [fitWords, fitField_of_lt (show v < 2 ^ 16 by omega), ih hvs]

/-- CONSTRUCT's operands, each within its field and the lists of the right lengths, have a record (R85). -/
theorem assembleConstruct_of_fits {addr cmd seg n chk : Nat} {cfg cyc : List Nat} (haddr : addr ≤ 0xFFF)
    (hcmd : cmd ≤ 255) (hseg : seg ≤ 1) (hchk : chk ≤ 1) (hn : n ≤ 255) (hcfg : cfg.length = 4)
    (hcfgWords : ∀ w ∈ cfg, w ≤ 0xFFFF) (hcyc : cyc.length = min n 123) (hcycWords : ∀ w ∈ cyc, w ≤ 0xFFFF) :
    assembleConstruct addr cmd seg cfg n cyc chk = .ok { Request.zero with
      op := 1, addr := .ofNat 12 addr, cmd := .ofNat 8 cmd, seg := .ofNat 1 seg
      cfg := wordField 4 (cfg.map (BitVec.ofNat 16)), n := .ofNat 8 n
      cyc := wordField 123 (cyc.map (BitVec.ofNat 16)), chk := .ofNat 1 chk } := by
  have hread : cyclicWordsRead (BitVec.ofNat 8 n) = cyc.length := by
    rw [cyclicWordsRead, BitVec.toNat_ofNat, Nat.mod_eq_of_lt (by omega), hcyc]
  rw [assembleConstruct, fitField_bind (by omega), fitField_bind (by omega), fitField_bind (by omega),
    fitField_bind (by omega), fitField_bind (by omega), fitWords_of_le hcfgWords, fitWords_of_le hcycWords]
  simp [bind, Except.bind, hcfg, hread]

/-- A line that fits has a request record (R85, R86). -/
theorem assemble_of_fits {l : Line} (h : LineFits l) : ∃ r, assemble l = .ok r := by
  cases l with
  | construct addr cmd seg cfg n cyc chk =>
    obtain ⟨haddr, hcmd, hseg, hchk, hn, hcfg, hcfgWords, hcyc, hcycWords⟩ := h
    cases cfg with
    | nil => exact ⟨_, assembleConstruct_of_fits haddr hcmd hseg hchk hn rfl (by decide) hcyc hcycWords⟩
    | cons w ws =>
      have hcfg4 : (w :: ws).length = 4 := hcfg.resolve_left nofun
      exact ⟨_, assembleConstruct_of_fits haddr hcmd hseg hchk hn hcfg4 hcfgWords hcyc hcycWords⟩
  | idle addr chk =>
    obtain ⟨haddr, hchk⟩ := h
    exact ⟨_, assembleConstruct_of_fits haddr (by decide) (by decide) hchk (by decide) rfl (by decide) rfl (by simp)⟩
  | getaddr | getcmd | getseg | getcfg => exact ⟨_, rfl⟩
  | getcyc len haschk =>
    obtain ⟨hlen, hhaschk⟩ := h
    exact ⟨_, (fitField_bind (Nat.lt_succ_of_le hlen)).trans (fitField_bind (Nat.lt_succ_of_le hhaschk))⟩
  | check len => exact ⟨_, fitField_bind (Nat.lt_succ_of_le h)⟩
  | rdw idx => exact ⟨_, fitField_bind (Nat.lt_succ_of_le h)⟩
  | wrw idx data =>
    obtain ⟨hidx, hdata⟩ := h
    exact ⟨_, (fitField_bind (Nat.lt_succ_of_le hidx)).trans (fitField_bind (Nat.lt_succ_of_le hdata))⟩

/-- A request record fails to decode only for its select code (R81). -/
theorem decodeRequest_error {r : Request} {e : DecodeError} (h : decodeRequest r = .error e) :
    e = .illegalOp r.op := by
  unfold decodeRequest at h
  split at h <;> cases h
  rfl

/-- A header word fails to decode only for its command (R75). -/
theorem decodeHeader_error {w : Word} {e : DecodeError} (h : decodeHeader w = .error e) :
    e = .reservedCommand w := by
  unfold decodeHeader at h
  split at h <;> cases h
  rfl

/-- Only a line that does not fit cannot be represented (R85). -/
theorem decode_unrepresentable {p : Packet} {why : Unrepresentable} (h : decode p = .error (.unrepresentable why)) :
    ∃ l, p = .line l ∧ ¬ LineFits l := by
  cases p with
  | request r => cases decodeRequest_error h
  | header w => cases decodeHeader_error h
  | line l =>
    refine ⟨l, rfl, fun hfits => ?_⟩
    obtain ⟨r, hr⟩ := assemble_of_fits hfits
    simp only [decode, hr] at h
    cases decodeRequest_error h

/-- The instruction of a request record has the cyclic words its count asks for (R82). -/
theorem decodeRequest_wellFormed {r : Request} {i : Instr} (h : decodeRequest r = .ok i) : i.wellFormed = true := by
  unfold decodeRequest at h
  split at h <;> cases h
  · simp [Instr.wellFormed, cyclicWordsRead]
  all_goals rfl

theorem decodeHeader_wellFormed {w : Word} {i : Instr} (h : decodeHeader w = .ok i) : i.wellFormed = true := by
  unfold decodeHeader at h
  split at h <;> cases h <;> rfl

/-- Whatever decodes is well-formed (R82, R85). -/
theorem decode_wellFormed {p : Packet} {i : Instr} (h : decode p = .ok i) : i.wellFormed = true := by
  cases p with
  | request r => exact decodeRequest_wellFormed h
  | header w => exact decodeHeader_wellFormed h
  | line l =>
    simp only [decode] at h
    split at h
    · exact decodeRequest_wellFormed h
    · cases h

end Sys2Proof
end

section
/-! What a step completes with and what it refuses (spec/20_memory.md R60, R63, spec/60_exceptions.md R191). -/

namespace Sys2Proof.Machine

/-- A block is free for a host or its own already, or it is another's (R63; log 5). -/
theorem owner_free_or_own_or_other (s : State) (host : Nat) :
    (s.owner = none ∨ s.owner = some host) ∨ ∃ k, s.owner = some k ∧ k ≠ host := by
  cases s.owner with
  | none => exact .inl (.inl rfl)
  | some k =>
    by_cases hk : k = host
    · exact .inl (.inr (hk ▸ rfl))
    · exact .inr ⟨k, rfl, hk⟩

section
variable {i : Instr} {p : Packet} {s t : State} {r : Refusal}

theorem respond_ne_refused (q : Response) : respond q s ≠ .refused r := nofun

/-- Going on with a word refuses nothing that the continuation does not. -/
theorem readWordThen_ne_refused {b : Nat} {k : Word → Host.Outcome State Fault Refusal}
    (hk : ∀ w, k w ≠ .refused r) : readWordThen s b k ≠ .refused r := by
  unfold readWordThen
  split
  · split
    · exact hk _
    · exact nofun
  · exact nofun

/-- Going on with words refuses nothing that the continuation does not. -/
theorem readThen_ne_refused {b n : Nat} {k : List Word → Host.Outcome State Fault Refusal}
    (hk : ∀ ws, k ws ≠ .refused r) : readThen s b n k ≠ .refused r := by
  unfold readThen
  split
  · exact hk _
  · exact nofun

theorem receiveHeader_ne_refused (w : Word) : receiveHeader w s ≠ .refused r := by
  rw [receiveHeader_eq]; exact nofun

/-- CONSTRUCT refuses only a cyclic list of the wrong length (log 13). -/
theorem construct_ne_refused {f : List Word → Word} {addr : BitVec 12} {cmd : BitVec 8} {seg : Bit}
    {cfg : Vector Word 4} {n : BitVec 8} {cyc : List Word} {chk : Bit} (hl : cyc.length = cyclicWordsRead n) :
    construct f addr cmd seg cfg n cyc chk s ≠ .refused r := by
  cases hc : recognized cmd.toNat with
  | false => rw [construct_invalid hl hc]; exact nofun
  | true =>
    by_cases hs : frameSize n chk ≤ Config.capacity
    · rw [construct_accepted hl hc hs]; exact nofun
    · rw [construct_oversized hl hc (by omega)]; exact nofun

/-- A well-formed operation is never refused (R191 (3); log 13). -/
theorem exec_ne_refused (h : i.wellFormed = true) : exec i s ≠ .refused r := by
  cases i with
  | construct addr cmd seg cfg n cyc chk => exact construct_ne_refused (by simpa [Instr.wellFormed] using h)
  | getaddr | getcmd | getseg => exact readWordThen_ne_refused (b := 0) fun _ => respond_ne_refused _
  | rdw idx => exact readWordThen_ne_refused fun _ => respond_ne_refused _
  | getcfg => exact readThen_ne_refused fun _ => respond_ne_refused _
  | getcyc len haschk =>
    simp only [exec, execGetcyc]
    split
    · exact respond_ne_refused _
    · exact readThen_ne_refused fun _ => respond_ne_refused _
  | check len =>
    simp only [exec, execCheck, verify]
    split
    · exact respond_ne_refused _
    · exact readThen_ne_refused fun _ => readWordThen_ne_refused fun _ => respond_ne_refused _
  | wrw idx data => simp only [exec, execWrw_eq]; exact nofun
  | hdrRead | hdrWrite | hdrAck | hdrReadError | hdrWriteError | hdrIdle => exact receiveHeader_ne_refused _

/-- Performing a packet refuses only a line that does not fit (R191 (3); log 10). -/
theorem perform_refused (h : perform p s = .refused r) :
    ∃ why l, r = .unrepresentable why ∧ p = .line l ∧ ¬ LineFits l := by
  cases hd : decode p with
  | ok i =>
    rw [perform_of_decode hd] at h
    exact absurd h (exec_ne_refused (decode_wellFormed hd))
  | error e =>
    rw [perform_of_decode_error hd] at h
    cases e with
    | illegalOp op => cases h
    | reservedCommand w => exact absurd h (receiveHeader_ne_refused w)
    | unrepresentable why =>
      cases h
      obtain ⟨l, hl, hfits⟩ := decode_unrepresentable hd
      exact ⟨why, l, rfl, hl, hfits⟩

/-- Performing a packet changes only FB, and answers it (R34, R35). -/
theorem perform_next (h : perform p s = .next t) : ∃ m q, t = { s with fb := m, resp := some q } := by
  cases hd : decode p with
  | ok i =>
    rw [perform_of_decode hd] at h
    obtain ⟨b, ws, q, -, -, rfl⟩ := exec_next h
    exact ⟨_, q, rfl⟩
  | error e =>
    rw [perform_of_decode_error hd] at h
    cases e with
    | illegalOp op => exact ⟨s.fb, _, raise_next h⟩
    | reservedCommand w => exact ⟨_, _, (Host.Outcome.next.inj ((receiveHeader_eq w s).symm.trans h)).symm⟩
    | unrepresentable why => cases h

end

/-- Settles O54: the step performs the packet for its host, and performing looks at no older response. -/
theorem stepsTakeRequestsInOrder : Obligations.StepsTakeRequestsInOrder := by
  intro s t host p rest hp ht
  rcases owner_free_or_own_or_other s host with ho | ⟨k, hk, hne⟩
  · rw [step_present hp ho] at ht
    have hsame (q : Option Response) : step { s with resp := q } = .next t := by
      rw [step_present (s := { s with resp := q }) hp ho, ← ht]
      exact perform_set_resp p { s with pending := rest, owner := some host } q
    obtain ⟨m, a, rfl⟩ := perform_next ht
    exact ⟨rfl, rfl, rfl, hsame⟩
  · rw [step_second_host hp hk hne] at ht; cases ht

/-- Settles O55: a step refuses for the owner, or performs the packet, which refuses only a line that does not
fit. -/
theorem refusalsAreTheNamedOnes : Obligations.RefusalsAreTheNamedOnes := by
  refine ⟨fun s h h' p rest hp ho hne => step_second_host hp ho hne.symm, fun s r hr => ?_⟩
  cases hp : s.pending with
  | nil => rw [step_idle hp] at hr; cases hr
  | cons ev rest =>
    cases ev with
    | reset => rw [step_reset hp] at hr; cases hr
    | present host p =>
      rcases owner_free_or_own_or_other s host with ho | ⟨k, hk, hne⟩
      · rw [step_present hp ho] at hr
        obtain ⟨why, l, rfl, rfl, hfits⟩ := perform_refused hr
        exact .inr ⟨why, host, l, rest, rfl, rfl, hfits⟩
      · rw [step_second_host hp hk hne] at hr
        cases hr
        exact .inl ⟨rfl, host, k, p, rest, rfl, hk, hne.symm⟩

/-- A table word is an instruction where its packet decodes to it (log 9). -/
theorem decode_of_decodeTableWord {nbits w : Nat} {i : Instr} (h : decodeTableWord nbits w = some i) :
    decode (tablePacket nbits w) = .ok i := by
  unfold decodeTableWord at h
  split at h
  · rename_i j hj; rw [hj, Option.some.inj h]
  · cases h

/-- Settles O50: the word is presented by the owner, or by host 0 to a free block, so the step performs it. -/
theorem placedTableWordsRunNext : Obligations.PlacedTableWordsRunNext := by
  intro s nbits w i h
  have ho : s.owner = none ∨ s.owner = some (s.owner.getD 0) := by cases s.owner <;> simp
  rw [step_present (s := s.withFetchWord nbits w) rfl ho]
  exact perform_of_decode (decode_of_decodeTableWord h) _

end Sys2Proof.Machine
end

section
/-! The header word's packing and the command codes (spec/30_encoding.md R71 to R75). -/

namespace Sys2Proof

/-- Settles O7: each concatenation is a shift and an or of the values. -/
theorem packHeaderIsShiftAndOr : Obligations.PackHeaderIsShiftAndOr := by
  refine fun a s c => ⟨rfl, BitVec.eq_of_toNat_eq ?_⟩
  have ha : a.toNat <<< 4 < 2 ^ 16 := by rw [Nat.shiftLeft_eq]; omega
  have hs : s.toNat <<< 3 < 2 ^ 16 := by rw [Nat.shiftLeft_eq]; omega
  calc (a ++ s ++ c).toNat
      = (a.toNat <<< 1 ||| s.toNat) <<< 3 ||| c.toNat := by rw [BitVec.toNat_append, BitVec.toNat_append]
    _ = a.toNat <<< 4 ||| s.toNat <<< 3 ||| c.toNat := by rw [Nat.shiftLeft_or_distrib, ← Nat.shiftLeft_add]
    _ = _ := by
      rw [BitVec.toNat_or, BitVec.toNat_or, BitVec.toNat_shiftLeft, BitVec.toNat_shiftLeft,
        BitVec.toNat_setWidth_of_le (by decide), BitVec.toNat_setWidth_of_le (by decide),
        BitVec.toNat_setWidth_of_le (by decide), Nat.mod_eq_of_lt ha, Nat.mod_eq_of_lt hs]

/-- Packing a word's fields gives the word back (R73). -/
theorem packHeader_fields (h : Word) : packHeader (hdrAddr h) (hdrSeg h) (hdrCmd h) = h := by
  have hupper : h.extractLsb' (3 + 1) 12 ++ h.extractLsb' 3 1 = h.extractLsb' 3 13 :=
    BitVec.extractLsb'_append_extractLsb'_eq_extractLsb' rfl
  have hall : h.extractLsb' (0 + 3) 13 ++ h.extractLsb' 0 3 = h.extractLsb' 0 16 :=
    BitVec.extractLsb'_append_extractLsb'_eq_extractLsb' rfl
  calc packHeader (hdrAddr h) (hdrSeg h) (hdrCmd h)
      = h.extractLsb' 3 13 ++ h.extractLsb' 0 3 := congrArg (· ++ h.extractLsb' 0 3) hupper
    _ = h := hall.trans BitVec.extractLsb'_eq_self

/-- Settles O8. -/
theorem headerPackingIsBijection : Obligations.HeaderPackingIsBijection :=
  ⟨fun a s c => ⟨hdrAddr_packHeader a s c, hdrSeg_packHeader a s c, hdrCmd_packHeader a s c⟩, packHeader_fields⟩

/-- A code from 8 on has no kind (R74). -/
theorem kind_of_ge {c : Nat} (h : 8 ≤ c) : kind c = .unrecognized := by
  obtain ⟨n, rfl⟩ := Nat.exists_eq_add_of_le' h
  rfl

/-- A code from 8 on is in the reserved class (R75). -/
theorem cmdClass_of_ge {c : Nat} (h : 8 ≤ c) : cmdClass c = .reserved := by
  obtain ⟨n, rfl⟩ := Nat.exists_eq_add_of_le' h
  rfl

/-- The codes are those of R74's table, and all those from 8 on. -/
theorem forall_code {P : Nat → Prop} (hlow : ∀ c < 8, P c) (hhigh : ∀ c, 8 ≤ c → P c) (c : Nat) : P c :=
  (lt_or_ge c 8).elim (hlow c) (hhigh c)

/-- Settles O9: the codes of R74's table one by one, and those from 8 on by their lemmas. -/
theorem commandCodesHaveTheirKinds : Obligations.CommandCodesHaveTheirKinds := by
  refine ⟨⟨rfl, rfl, rfl, rfl, rfl, rfl⟩, forall_code (by decide) fun c hc => ?_, fun c => by simp [recognized],
    forall_code (by decide) fun c hc => ?_, forall_code (by decide) fun c hc => ?_,
    forall_code (by decide) fun c hc => ?_⟩
  · simp [kind_of_ge hc, hc]
  all_goals
    simp only [cmdClass_of_ge hc, reduceCtorEq, true_iff, false_iff]
    omega

end Sys2Proof
end

section
/-! Decoding a request record by its select code and a header word by its command (spec/30_encoding.md R74, R75,
R80 to R82). -/

namespace Sys2Proof

open Machine

/-- A reserved select code is no instruction (R81). -/
theorem decodeRequest_reserved {r : Request} (h : r.op.toNat = 0 ∨ 10 ≤ r.op.toNat) :
    decodeRequest r = .error (.illegalOp r.op) := by
  unfold decodeRequest
  split
  case h_10 => rfl
  all_goals omega

/-- A reserved command is no row of the table (R75). -/
theorem decodeHeader_reserved {h : Word} (hc : hdrCmd h = 0 ∨ hdrCmd h = 4) :
    decodeHeader h = .error (.reservedCommand h) := by
  rcases hc with hc | hc <;> simp [decodeHeader, hc]

/-- Of the cyclic words a format F-ENC reads only the first `min(n, 123)` count (R82). -/
theorem take_cyclicWordsRead_congr {n : BitVec 8} {ws ws' : List Word}
    (h : ∀ k, k < min n.toNat 123 → ws[k]? = ws'[k]?) :
    ws.take (cyclicWordsRead n) = ws'.take (cyclicWordsRead n) := by
  refine List.ext_getElem? fun k => ?_
  by_cases hk : k < cyclicWordsRead n
  · rw [List.getElem?_take_of_lt hk, List.getElem?_take_of_lt hk, h k hk]
  · simp [hk]

/-- Settles O5: each format reads the fields on which the records agree. -/
theorem unlistedFieldsAreIgnored : Obligations.UnlistedFieldsAreIgnored := by
  intro r r' hop hconstruct hgetcyc hcheck hrdw hwrw
  have hcode {v : BitVec 4} (h : r.op.toNat = v.toNat) : r.op = v := BitVec.eq_of_toNat_eq h
  left
  simp only [decode, decodeRequest, ← hop]
  split
  case h_1 h =>
    obtain ⟨haddr, hcmd, hseg, hcfg, hn, hchk, hcyc⟩ := hconstruct (hcode h)
    rw [← haddr, ← hcmd, ← hseg, ← hcfg, ← hn, ← hchk, take_cyclicWordsRead_congr hcyc]
  case h_6 h =>
    obtain ⟨hlen, hhaschk⟩ := hgetcyc (hcode h)
    rw [hlen, hhaschk]
  case h_7 h => rw [hcheck (hcode h)]
  case h_8 h => rw [hrdw (hcode h)]
  case h_9 h =>
    obtain ⟨hidx, hdata⟩ := hwrw (hcode h)
    rw [hidx, hdata]
  all_goals rfl

/-- Settles O6. -/
theorem decodedInstructionsAreWellFormed : Obligations.DecodedInstructionsAreWellFormed :=
  fun _ _ h => decode_wellFormed h

/-- Settles O52. -/
theorem reservedSelectCodesAnswerIllegalOp : Obligations.ReservedSelectCodesAnswerIllegalOp := by
  intro s r h
  have hdecode : decode (.request r) = .error (.illegalOp r.op) := decodeRequest_reserved h
  refine ⟨fun i hi => ?_, perform_of_decode_error hdecode s⟩
  rw [hdecode] at hi
  cases hi

/-- GETCMD of a written header answers its command and what that is (R122, R123). -/
theorem execGetcmd_of_read {s : State} {h : Word} (hr : s.fb.read 0 = some h) :
    exec .getcmd s = .next { s with
      resp := some {
        status := .ok, cmd := some (hdrCmd h), recognized := some (b2w (recognized (hdrCmd h).toNat)),
        kind := some (kind (hdrCmd h).toNat) } } :=
  readWordThen_some _ (by decide) hr

/-- Settles O53: the word is stored in FB[0], where GETCMD finds it. -/
theorem reservedHeadersAreReceivedLikeAnyWord : Obligations.ReservedHeadersAreReceivedLikeAnyWord := by
  rintro s h c hcmd hc
  change hdrCmd h = c at hcmd
  subst hcmd
  have hperform : perform (.header h) s = receiveHeader h s :=
    perform_of_decode_error (p := .header h) (decodeHeader_reserved hc) s
  refine ⟨_, hperform.trans (receiveHeader_eq h s), rfl, Memory.read_write_same s.fb 0 h,
    fun k hk => Memory.read_write_ne s.fb h hk, ?_⟩
  rw [execGetcmd_of_read (Memory.read_write_same s.fb 0 h)]
  rcases hc with hc | hc <;> rw [hc] <;> rfl

/-- Settles O1: the words are evaluated. -/
theorem sampleWordsDecode : Obligations.SampleWordsDecode := ⟨rfl, rfl, rfl, rfl, rfl, rfl, rfl⟩

/-- The select code of a table word is in its bits 3:0 (log 9). -/
theorem Request.ofBits_op (x : Nat) : (Request.ofBits x).op.toNat = x % 16 := by
  simp [Request.ofBits, requestWidths, unpackFields]

/-- The command of a table word is in its bits 2:0 (R72). -/
theorem hdrCmd_ofNat (w : Nat) : (hdrCmd (BitVec.ofNat 16 w)).toNat = w % 8 := by
  simp [hdrCmd, BitVec.extractLsb'_toNat]

/-- The rows of the opcode table are select codes of 8-bit words and commands of 16-bit words (R80, R74; log 9). -/
theorem opcodeTable_masks {row : OpcodeRow} (h : row ∈ opcodeTable) :
    row.nbits = 8 ∧ row.mask = 2 ^ 4 - 1 ∨ row.nbits = 16 ∧ row.mask = 2 ^ 3 - 1 := by
  revert row; decide

/-- A record with a row's select code decodes to that row's operation (R80). -/
theorem decodeRequest_of_row {row : OpcodeRow} (h : row ∈ opcodeTable) (hw : row.nbits = 8) {r : Request}
    (hop : r.op.toNat = row.pattern) : ∃ i, decodeRequest r = .ok i ∧ i.mnemonic = row.mnemonic := by
  have hrow : row ∈ opcodeTable.filter (·.nbits = 8) := List.mem_filter.2 ⟨h, decide_eq_true hw⟩
  fin_cases hrow <;> simp [decodeRequest, hop, Instr.mnemonic]

/-- A header word with a row's command decodes to that row's header (R74). -/
theorem decodeHeader_of_row {row : OpcodeRow} (h : row ∈ opcodeTable) (hw : row.nbits = 16) {w : Word}
    (hcmd : (hdrCmd w).toNat = row.pattern) : ∃ i, decodeHeader w = .ok i ∧ i.mnemonic = row.mnemonic := by
  have hrow : row ∈ opcodeTable.filter (·.nbits = 16) := List.mem_filter.2 ⟨h, decide_eq_true hw⟩
  fin_cases hrow <;> simp [decodeHeader, hcmd, Instr.mnemonic]

/-- Settles O2: a row's mask leaves the bits that select its operation, or its command. -/
theorem tableRowsDecodeByMask : Obligations.TableRowsDecodeByMask := by
  intro row hrow w _ hmatch
  obtain ⟨i, hi, hm⟩ :
      ∃ i, decode (tablePacket row.nbits w) = .ok i ∧ i.mnemonic = row.mnemonic := by
    rcases opcodeTable_masks hrow with ⟨hn, hmask⟩ | ⟨hn, hmask⟩
    · rw [hmask, Nat.and_two_pow_sub_one_eq_mod] at hmatch
      rw [hn]
      exact decodeRequest_of_row hrow hn ((Request.ofBits_op w).trans hmatch)
    · rw [hmask, Nat.and_two_pow_sub_one_eq_mod] at hmatch
      rw [hn]
      exact decodeHeader_of_row hrow hn ((hdrCmd_ofNat w).trans hmatch)
  exact ⟨i, by rw [decodeTableWord, hi], hm⟩

end Sys2Proof
end

section
/-! Lines: which have a request record, and what they decode to (spec/30_encoding.md R85, R86). -/

namespace Sys2Proof

open Machine

/-- A line decodes as its request record does (R85). -/
theorem decode_line {l : Line} {r : Request} (h : assemble l = .ok r) : decode (.line l) = decodeRequest r := by
  simp [decode, h]

/-- A line with no request record decodes to the reason (R85, R191 (3)). -/
theorem decode_line_error {l : Line} {why : Unrepresentable} (h : assemble l = .error why) :
    decode (.line l) = .error (.unrepresentable why) := by
  simp [decode, h]

/-- Lines that stand for one request decode alike (R86). -/
theorem decode_line_congr {l l' : Line} (h : l.expand = l'.expand) : decode (.line l) = decode (.line l') := by
  simp only [decode, assemble, h]

/-- Settles O12: the two lines of each pair stand for one request. -/
theorem pseudoFormsAbbreviateConstruct : Obligations.PseudoFormsAbbreviateConstruct :=
  ⟨fun _ _ _ _ _ _ => decode_line_congr rfl, fun _ _ _ _ _ _ => decode_line_congr rfl,
    fun _ _ => decode_line_congr rfl⟩

section
variable {α : Type} {a : α}

/-- Assembling goes on exactly with a value within its field's width. -/
theorem fitField_bind_eq_ok {width v : Nat} {why : Unrepresentable}
    {k : BitVec width → Except Unrepresentable α} :
    (fitField width v why >>= k) = .ok a ↔ v < 2 ^ width ∧ k (BitVec.ofNat width v) = .ok a := by
  by_cases hv : v < 2 ^ width
  · rw [fitField_bind hv]; exact (and_iff_right hv).symm
  · simp [fitField, hv, bind, Except.bind]

/-- Only values within 16 bits are words (R85). -/
theorem le_of_fitWords {vs : List Nat} {ws : List Word} (h : fitWords vs = .ok ws) : ∀ v ∈ vs, v ≤ 0xFFFF := by
  induction vs generalizing ws with
  | nil => simp
  | cons v vs ih =>
    by_cases hv : v < 2 ^ 16
    · rw [fitWords, fitField_of_lt hv] at h
      cases hvs : fitWords vs with
      | ok us => exact List.forall_mem_cons.2 ⟨Nat.le_of_lt_succ hv, ih hvs⟩
      | error e => simp [hvs] at h
    · rw [fitWords, fitField, if_neg hv] at h
      cases h

/-- Assembling goes on exactly with values within 16 bits. -/
theorem fitWords_bind_eq_ok {vs : List Nat} {k : List Word → Except Unrepresentable α} :
    (fitWords vs >>= k) = .ok a ↔ (∀ v ∈ vs, v ≤ 0xFFFF) ∧ k (vs.map (BitVec.ofNat 16)) = .ok a := by
  constructor
  · intro h
    cases hvs : fitWords vs with
    | ok ws =>
      have hle := le_of_fitWords hvs
      rw [fitWords_of_le hle] at h
      exact ⟨hle, h⟩
    | error e => rw [hvs] at h; cases h
  · rintro ⟨hle, hk⟩
    rw [fitWords_of_le hle]
    exact hk

end

/-- The cyclic words a count within its field asks for (R82). -/
theorem cyclicWordsRead_ofNat {n : Nat} (h : n < 2 ^ 8) : cyclicWordsRead (BitVec.ofNat 8 n) = min n 123 := by
  rw [cyclicWordsRead, BitVec.toNat_ofNat, Nat.mod_eq_of_lt h]

/-- CONSTRUCT's operands that have a record fit their fields, the lists have the right lengths, and the record is
CONSTRUCT's (R85). -/
theorem assembleConstruct_ok {addr cmd seg n chk : Nat} {cfg cyc : List Nat} {r : Request}
    (h : assembleConstruct addr cmd seg cfg n cyc chk = .ok r) :
    LineFits (.construct addr cmd seg cfg (some n) cyc chk) ∧ cfg.length = 4 ∧ r.op = 1 := by
  simp only [assembleConstruct, fitField_bind_eq_ok, fitWords_bind_eq_ok] at h
  obtain ⟨haddr, hcmd, hseg, hn, hchk, hcfgWords, hcycWords, h⟩ := h
  split at h
  · cases h
  next hcfg =>
    split at h
    · cases h
    next hcyc =>
      cases h
      have hcfg4 : cfg.length = 4 := not_ne_iff.1 hcfg
      have hcycLength : cyc.length = min n 123 := (not_ne_iff.1 hcyc).trans (cyclicWordsRead_ofNat hn)
      exact ⟨⟨Nat.le_of_lt_succ haddr, Nat.le_of_lt_succ hcmd, Nat.le_of_lt_succ hseg, Nat.le_of_lt_succ hchk,
        Nat.le_of_lt_succ hn, .inr hcfg4, hcfgWords, hcycLength, hcycWords⟩, hcfg4, rfl⟩

/-- A line that has a record fits, and its record is an instruction's (R85). -/
theorem assemble_ok {l : Line} {r : Request} (h : assemble l = .ok r) :
    LineFits l ∧ ∃ i, decodeRequest r = .ok i := by
  have hconstruct {q : Request} (hq : q.op = 1) : ∃ i, decodeRequest q = .ok i := by simp [decodeRequest, hq]
  cases l with
  | construct addr cmd seg cfg n cyc chk =>
    obtain ⟨⟨haddr, hcmd, hseg, hchk, hn, -, hcfgWords, hcyc, hcycWords⟩, hcfg, hop⟩ := assembleConstruct_ok h
    refine ⟨?_, hconstruct hop⟩
    cases cfg with
    | nil => exact ⟨haddr, hcmd, hseg, hchk, hn, .inl rfl, nofun, hcyc, hcycWords⟩
    | cons w ws => exact ⟨haddr, hcmd, hseg, hchk, hn, .inr hcfg, hcfgWords, hcyc, hcycWords⟩
  | idle addr chk =>
    obtain ⟨⟨haddr, -, -, hchk, -⟩, -, hop⟩ := assembleConstruct_ok h
    exact ⟨⟨haddr, hchk⟩, hconstruct hop⟩
  | getaddr | getcmd | getseg | getcfg => cases h; exact ⟨trivial, _, rfl⟩
  | getcyc len haschk =>
    obtain ⟨hlen, h⟩ := fitField_bind_eq_ok.1 h
    obtain ⟨hhaschk, h⟩ := fitField_bind_eq_ok.1 h
    cases h
    exact ⟨⟨Nat.le_of_lt_succ hlen, Nat.le_of_lt_succ hhaschk⟩, _, rfl⟩
  | check len | rdw idx =>
    obtain ⟨hfit, h⟩ := fitField_bind_eq_ok.1 h
    cases h
    exact ⟨Nat.le_of_lt_succ hfit, _, rfl⟩
  | wrw idx data =>
    obtain ⟨hidx, h⟩ := fitField_bind_eq_ok.1 h
    obtain ⟨hdata, h⟩ := fitField_bind_eq_ok.1 h
    cases h
    exact ⟨⟨Nat.le_of_lt_succ hidx, Nat.le_of_lt_succ hdata⟩, _, rfl⟩

/-- Settles O10: a line fits exactly where it has a record, and its record is an instruction's. -/
theorem linesAreRefusedExactlyWhenTheyDoNotFit : Obligations.LinesAreRefusedExactlyWhenTheyDoNotFit := by
  intro l s host rest hp ho
  constructor
  · intro hfits
    obtain ⟨r, hr⟩ := assemble_of_fits hfits
    obtain ⟨-, i, hi⟩ := assemble_ok hr
    have hdecode : decode (.line l) = .ok i := (decode_line hr).trans hi
    exact ⟨i, hdecode, (step_present hp ho).trans (perform_of_decode hdecode _)⟩
  · intro hfits
    cases hl : assemble l with
    | ok r => exact absurd (assemble_ok hl).1 hfits
    | error why => exact ⟨why, (step_present hp ho).trans (perform_of_decode_error (decode_line_error hl) _)⟩

/-- Settles O11: each line's record, decoded. -/
theorem linesDecodeToTheirOperands : Obligations.LinesDecodeToTheirOperands := by
  refine ⟨fun addr cmd seg cfg n cyc chk hfits hlen => ?construct, rfl, rfl, rfl, rfl,
    fun len haschk hlen hhaschk => ?getcyc, fun len hlen => ?check, fun idx hidx => ?rdw,
    fun idx data hidx hdata => ?wrw⟩
  case construct =>
    obtain ⟨haddr, hcmd, hseg, hchk, hn, -, hcfgWords, hcyc, hcycWords⟩ := hfits
    rw [Option.getD_some] at hn hcyc
    have hcfg : (wordField 4 (cfg.map (BitVec.ofNat 16))).toList = cfg.map (BitVec.ofNat 16) :=
      wordField_of_length (by rw [List.length_map, hlen])
    have hread : cyclicWordsRead (BitVec.ofNat 8 n) = (cyc.map (BitVec.ofNat 16)).length := by
      rw [cyclicWordsRead_ofNat (Nat.lt_succ_of_le hn), List.length_map, hcyc]
    have htake : (wordField 123 (cyc.map (BitVec.ofNat 16))).toList.take (cyclicWordsRead (BitVec.ofNat 8 n)) =
        cyc.map (BitVec.ofNat 16) := take_wordField hread (Nat.min_le_right _ _)
    obtain ⟨w, ws, rfl⟩ := List.exists_cons_of_length_eq_add_one hlen
    refine ⟨_, hcfg, (decode_line (l := .construct addr cmd seg (w :: ws) (some n) cyc chk)
      (assembleConstruct_of_fits haddr hcmd hseg hchk hn hlen hcfgWords hcyc hcycWords)).trans ?_⟩
    simp [decodeRequest, htake]
  case getcyc =>
    exact (decode_line (l := .getcyc len haschk)
      ((fitField_bind (Nat.lt_succ_of_le hlen)).trans (fitField_bind (Nat.lt_succ_of_le hhaschk)))).trans rfl
  case check => exact (decode_line (l := .check len) (fitField_bind (Nat.lt_succ_of_le hlen))).trans rfl
  case rdw => exact (decode_line (l := .rdw idx) (fitField_bind (Nat.lt_succ_of_le hidx))).trans rfl
  case wrw =>
    exact (decode_line (l := .wrw idx data)
      ((fitField_bind (Nat.lt_succ_of_le hidx)).trans (fitField_bind (Nat.lt_succ_of_le hdata)))).trans rfl

end Sys2Proof
end

section
/-! The frame that an accepted CONSTRUCT leaves in FB, word by word, and what the decoder and CHECK make of it
(spec/40_encoder.md R101 to R111). -/

namespace Sys2Proof.Machine

/-- The recognized commands, as the list of R74. -/
theorem recognized_iff_mem {c : Nat} : recognized c = true ↔ c ∈ [1, 2, 3, 5, 6, 7] := List.contains_iff_mem

/-- The reserved commands below 8 are not recognized (R75). -/
theorem ne_reserved_of_recognized {c : Nat} (h : recognized c = true) : c ≠ 0 ∧ c ≠ 4 := by
  constructor
  · rintro rfl; cases h
  · rintro rfl; cases h

/-- A frame is its header, config and cyclic words, then its checksum word if it has one (R51). -/
theorem frameWords_eq_append (f : List Word → Word) (h : Word) (cfg cyc : List Word) (chk : Bit) :
    frameWords f h cfg cyc chk = (h :: (cfg ++ cyc)) ++ if chk = 1 then [f (h :: (cfg ++ cyc))] else [] := by
  unfold frameWords
  split <;> simp

section
variable (m : Memory) (f : List Word → Word) (h : Word) {cfg : List Word} (h4 : cfg.length = 4) (cyc : List Word)
  (chk : Bit) {k : Nat}

/-- Before the checksum word a written frame reads as its header, config and cyclic words (R101, R104). -/
theorem read_frame_body (hk : k < (h :: (cfg ++ cyc)).length) :
    (m.writeList 0 (frameWords f h cfg cyc chk)).read k = (h :: (cfg ++ cyc))[k]? := by
  rw [Memory.read_writeList, frameWords_eq_append, if_pos (by rw [List.length_append]; omega)]
  exact List.getElem?_append_left hk

theorem read_frame_header : (m.writeList 0 (frameWords f h cfg cyc chk)).read 0 = some h :=
  read_frame_body m f h cyc chk (Nat.zero_lt_succ _)

/-- The words from the frame's size on are as before (R104). -/
theorem read_frame_beyond (hk : 1 + cfg.length + cyc.length + chk.toNat ≤ k) :
    (m.writeList 0 (frameWords f h cfg cyc chk)).read k = m.read k :=
  Memory.read_writeList_outside m _ (.inr (by rwa [frameWords_length, Nat.zero_add]))

include h4

theorem read_frame_config (hk : k < 4) :
    (m.writeList 0 (frameWords f h cfg cyc chk)).read (1 + k) = cfg[k]? := by
  rw [read_frame_body m f h cyc chk (by simp; omega), Nat.add_comm, List.getElem?_cons_succ,
    List.getElem?_append_left (h4 ▸ hk)]

theorem read_frame_cyclic (hk : k < cyc.length) :
    (m.writeList 0 (frameWords f h cfg cyc chk)).read (5 + k) = cyc[k]? := by
  rw [read_frame_body m f h cyc chk (by simp; omega), show 5 + k = 4 + k + 1 by omega, List.getElem?_cons_succ,
    ← h4, List.getElem?_append_right (Nat.le_add_right _ _), Nat.add_sub_cancel_left]

/-- The checksum word follows the words it is of (R105). -/
theorem read_frame_checksum :
    (m.writeList 0 (frameWords f h cfg cyc 1)).read (5 + cyc.length) = some (f (h :: (cfg ++ cyc))) := by
  have hlen : (h :: (cfg ++ cyc)).length = 5 + cyc.length := by simp [h4]; omega
  rw [Memory.read_writeList, frameWords_eq_append, if_pos rfl, if_pos (by rw [List.length_append, hlen]; simp),
    ← hlen]
  exact List.getElem?_concat_length

theorem memRead_frame_config :
    memRead (m.writeList 0 (frameWords f h cfg cyc chk)) 1 4 = .ok cfg :=
  (memRead_ok_iff ..).2 ⟨.inr (by decide), h4, fun _ hk => read_frame_config m f h h4 cyc chk hk⟩

/-- MemRead of a written frame up to its checksum word is what the checksum is of (R105, R145). -/
theorem memRead_frame_body (hfits : 5 + cyc.length ≤ Config.capacity) :
    memRead (m.writeList 0 (frameWords f h cfg cyc chk)) 0 (5 + cyc.length) = .ok (h :: (cfg ++ cyc)) := by
  have hlen : (h :: (cfg ++ cyc)).length = 5 + cyc.length := by simp [h4]; omega
  refine (memRead_ok_iff ..).2 ⟨.inr (by omega), hlen, fun k hk => ?_⟩
  rw [Nat.zero_add, read_frame_body m f h cyc chk (hlen ▸ hk)]

end

section
variable {s : State} {w : Word}

/-- A continued read goes on with the words it reads (R12). -/
theorem readThen_of_memRead {i n : Nat} {ws : List Word} (k : List Word → Host.Outcome State Fault Refusal)
    (h : memRead s.fb i n = .ok ws) : readThen s i n k = k ws := by
  rw [readThen, h]

/-- GETADDR of a written header (R120). -/
theorem execGetaddr_of_read (h : s.fb.read 0 = some w) :
    exec .getaddr s = .next { s with resp := some { status := .ok, addr := some (hdrAddr w) } } :=
  readWordThen_some _ (by decide) h

/-- GETSEG of a written header (R124). -/
theorem execGetseg_of_read (h : s.fb.read 0 = some w) :
    exec .getseg s = .next { s with resp := some { status := .ok, seg := some (hdrSeg w) } } :=
  readWordThen_some _ (by decide) h

/-- GETCFG of written config words (R126). -/
theorem execGetcfg_of_memRead {ws : List Word} (h : memRead s.fb 1 4 = .ok ws) :
    exec .getcfg s = .next { s with resp := some { status := .ok, size := some 4, words := some ws } } :=
  readThen_of_memRead _ h

end

section
variable {f : List Word → Word} {addr : BitVec 12} {cmd : BitVec 8} {seg : Bit} {cfg : Vector Word 4}
  {n : BitVec 8} {cyc : List Word} {chk : Bit} {s t : State} {r : Response}

/-- The machine's CONSTRUCT takes the configured checksum function (R140; log 11). -/
theorem exec_construct (addr : BitVec 12) (cmd : BitVec 8) (seg : Bit) (cfg : Vector Word 4) (n : BitVec 8)
    (cyc : List Word) (chk : Bit) (s : State) :
    exec (.construct addr cmd seg cfg n cyc chk) s = construct Config.checkFn addr cmd seg cfg n cyc chk s := rfl

/-- So does the machine's CHECK (R140; log 11). -/
theorem exec_check (len : BitVec 8) (s : State) : exec (.check len) s = verify Config.checkFn len s := rfl

/-- What CONSTRUCT leaves where it answers OK: the command is recognized, the frame fits, and it stands in FB
(R102 to R106). -/
theorem construct_ok_frame (h : construct f addr cmd seg cfg n cyc chk s = .next t) (hr : t.resp = some r)
    (hok : r.status = .ok) :
    recognized cmd.toNat = true ∧ frameSize n chk ≤ Config.capacity ∧ cyc.length = n.toNat ∧
      r.size = some (BitVec.ofNat 8 (frameSize n chk)) ∧
      t.fb = s.fb.writeList 0 (frameWords f (packHeader addr seg (cmdLow cmd)) cfg.toList cyc chk) := by
  obtain ⟨hl, ⟨-, rfl⟩ | ⟨-, -, rfl⟩ | ⟨hc, hfits, rfl⟩⟩ := construct_next h
  · cases hr; cases hok
  · cases hr; cases hok
  · cases hr; exact ⟨hc, hfits, cyclic_length_of_fits hl hfits, rfl, rfl⟩

/-- CHECK of a frame just built with a checksum finds it valid, whatever the checksum function (R111, R148). -/
theorem verify_of_frame {m : Memory} {h : Word} {words : List Word} {z : BitVec 8} (h4 : words.length = 4)
    (hfb : s.fb = m.writeList 0 (frameWords f h words cyc 1)) (hz : z.toNat = 6 + cyc.length)
    (hfits : 6 + cyc.length ≤ Config.capacity) :
    verify f z s = .next { s with resp := some { status := .ok, valid := some 1 } } := by
  simp only [Config.capacity] at hfits
  have hlast : z.toNat - 1 = 5 + cyc.length := by omega
  have hbody := memRead_frame_body m f h h4 cyc 1 (by simp only [Config.capacity]; omega)
  have hsum := read_frame_checksum m f h h4 cyc
  rw [← hfb, ← hlast] at hbody hsum
  rw [verify_eq (by omega) (by omega) hbody hsum, beq_self_eq_true]
  rfl

end

/-- Settles O13: the state after an accepted CONSTRUCT is that of `construct_accepted`, its frame read word by word. -/
theorem constructWritesTheFrame : Obligations.ConstructWritesTheFrame := by
  intro addr cmd seg cfg n cyc chk s hl hc hfits
  have hn : cyc.length = n.toNat := cyclic_length_of_fits (chk := chk) hl hfits
  have h4 : cfg.toList.length = 4 := cfg.length_toList
  refine ⟨_, construct_accepted hl (recognized_iff_mem.2 hc) hfits, rfl, read_frame_header .., ?config, ?cyclic,
    ?checksum, ?beyond, rfl, rfl⟩
  case config => exact fun k hk => read_frame_config _ _ _ h4 _ _ hk
  case cyclic => exact fun k hk => read_frame_cyclic _ _ _ h4 _ _ (hn ▸ hk)
  case checksum =>
    rintro rfl
    rw [← hn]
    exact read_frame_checksum _ _ _ h4 _
  case beyond => exact fun k hk => read_frame_beyond _ _ _ _ _ (by rwa [h4, hn])

/-- Settles O15: the sum is exact, so it passes 128 for the counts named, and such a frame is rejected. -/
theorem constructRejectsOversizedFrames : Obligations.ConstructRejectsOversizedFrames := by
  intro addr cmd seg cfg n cyc chk s
  refine ⟨?_, fun hl hc hs => construct_oversized hl (recognized_iff_mem.2 hc) hs⟩
  rcases bit_cases chk with rfl | rfl
  · simp; omega
  · simp; omega

/-- Settles O17: FB[0] is the packed header, whose command is the one requested, and that one is recognized. -/
theorem constructNeverWritesReservedCommands : Obligations.ConstructNeverWritesReservedCommands := by
  intro addr cmd seg cfg n cyc chk s t r ht hr hok
  obtain ⟨hc, -, -, -, hfb⟩ := construct_ok_frame ht hr hok
  have hcmd : (hdrCmd (packHeader addr seg (cmdLow cmd))).toNat = cmd.toNat := by
    rw [hdrCmd_packHeader, cmdLow_toNat hc]
  obtain ⟨h0, h4⟩ := ne_reserved_of_recognized hc
  exact ⟨_, hfb ▸ read_frame_header .., hcmd, hcmd ▸ h0, hcmd ▸ h4⟩

/-- Settles O25: the decoders read the header and config words of the frame, CHECK its body and checksum word. -/
theorem decodersReturnWhatConstructPacked : Obligations.DecodersReturnWhatConstructPacked := by
  intro addr cmd seg cfg n cyc chk s t z ht hr
  obtain ⟨hc, hfits, hn, hsize, hfb⟩ := construct_ok_frame ht hr rfl
  have h4 : cfg.toList.length = 4 := cfg.length_toList
  have hheader : t.fb.read 0 = some (packHeader addr seg (cmdLow cmd)) := hfb ▸ read_frame_header ..
  have hconfig : memRead t.fb 1 4 = .ok cfg.toList := hfb ▸ memRead_frame_config _ _ _ h4 _ _
  refine ⟨?getaddr, ⟨cmdLow cmd, cmdLow_toNat hc, ?getcmd⟩, ?getseg, execGetcfg_of_memRead hconfig, ?check⟩
  case getaddr => rw [execGetaddr_of_read hheader, hdrAddr_packHeader]
  case getcmd =>
    rw [execGetcmd_of_read hheader, hdrCmd_packHeader, cmdLow_toNat hc, hc]
    rfl
  case getseg => rw [execGetseg_of_read hheader, hdrSeg_packHeader]
  case check =>
    rintro rfl
    have hsum : frameSize n 1 = 6 + cyc.length := by simp [frameSize, hn]; omega
    rw [hsum] at hfits hsize
    cases hsize
    exact verify_of_frame h4 hfb (Nat.mod_eq_of_lt (Nat.lt_of_le_of_lt hfits (by decide))) hfits

/-- Settles O14: the first clause is `construct_invalid`; the second is the two failures of `construct_next`. -/
theorem constructRejectsUnrecognizedCommands : Obligations.ConstructRejectsUnrecognizedCommands := by
  intro addr cmd seg cfg n cyc chk s
  refine ⟨fun hl hc => construct_invalid hl (Bool.eq_false_iff.2 (mt recognized_iff_mem.1 hc)),
    fun t r ht hr hfail => ?_⟩
  obtain ⟨-, ⟨-, rfl⟩ | ⟨-, -, rfl⟩ | ⟨-, -, rfl⟩⟩ := construct_next ht
  · cases hr; exact ⟨.inl rfl, rfl, rfl⟩
  · cases hr; exact ⟨.inr rfl, rfl, rfl⟩
  · cases hr; exact absurd rfl hfail

/-- Settles O18: the checksum is evaluated, the rest is an accepted CONSTRUCT and what CHECK makes of it. -/
theorem workedExampleBuildsAndChecks : Obligations.WorkedExampleBuildsAndChecks := by
  have hsum : chk16 [0x00A2, 0x1111, 0x2222, 0x3333, 0x4444] = 0xDA9A := by decide +kernel
  refine ⟨_, (exec_construct ..).trans (construct_accepted rfl rfl (by decide)), rfl, ?_, hsum,
    (exec_check ..).trans (verify_of_frame (cyc := []) Vector.length_toList rfl rfl (by decide))⟩
  rw [← hsum]
  rfl

end Sys2Proof.Machine
end

section
/-! The five decoder operations on written words (spec/41_decoder.md R120 to R130). GETADDR, GETCMD, GETSEG and
GETCFG of written words are `execGetaddr_of_read`, `execGetcmd_of_read`, `execGetseg_of_read` and
`execGetcfg_of_memRead`. -/

namespace Sys2Proof.Machine

/-- GETCYC of a length no frame has (R128). -/
theorem execGetcyc_badLength {len : BitVec 8} {haschk : Bit} {s : State}
    (h : len.toNat > 128 ∨ len.toNat < 5 + haschk.toNat) :
    exec (.getcyc len haschk) s =
      .next { s with resp := some { status := .badLength, size := some 0, words := some [] } } :=
  if_pos h

/-- GETCYC of the true length of a frame whose cyclic words are `ws` (R128). -/
theorem execGetcyc_of_read {len : BitVec 8} {haschk : Bit} {ws : List Word} {s : State}
    (hlen : len.toNat = 5 + ws.length + haschk.toNat) (hmax : len.toNat ≤ 128)
    (hread : ∀ k, k < ws.length → s.fb.read (5 + k) = ws[k]?) :
    exec (.getcyc len haschk) s = .next { s with
      resp := some { status := .ok, size := some (BitVec.ofNat 8 ws.length), words := some ws } } := by
  have hcount : len.toNat - 5 - haschk.toNat = ws.length := by omega
  have hmem : memRead s.fb 5 ws.length = .ok ws :=
    (memRead_ok_iff ..).2 ⟨.inr (by simp only [Config.capacity]; omega), rfl, hread⟩
  change execGetcyc len haschk s = _
  rw [execGetcyc, if_neg (by simp only [Config.capacity]; omega), hcount]
  exact readThen_of_memRead _ hmem

/-- Settles O19: GETADDR of a written header, whose field is `hdrAddr`. -/
theorem getaddrReturnsTheAddressField : Obligations.GetaddrReturnsTheAddressField :=
  ⟨by rintro ⟨⟩ rfl; rfl, fun _ _ hr => execGetaddr_of_read hr⟩

/-- Settles O20: GETCMD of a written header; the table of R123 is a fact about the eight values of the field. -/
theorem getcmdReturnsTheCommandAndItsKind : Obligations.GetcmdReturnsTheCommandAndItsKind := by
  refine ⟨by rintro ⟨⟩ rfl; rfl, fun s h hr => ⟨_, _, execGetcmd_of_read hr, ?table⟩⟩
  case table =>
    unfold hdrCmd
    generalize h.extractLsb' 0 3 = c
    revert c
    decide

/-- Settles O21: GETSEG of a written header, whose bit is `hdrSeg`. -/
theorem getsegReturnsTheFlag : Obligations.GetsegReturnsTheFlag :=
  ⟨by rintro ⟨⟩ rfl; rfl, fun _ _ hr => execGetseg_of_read hr⟩

/-- Settles O22: MemRead(1, 4) of four written words answers them in order. -/
theorem getcfgReturnsTheConfigWords : Obligations.GetcfgReturnsTheConfigWords := by
  refine ⟨by rintro ⟨⟩ rfl; rfl, fun s c0 c1 c2 c3 h1 h2 h3 h4 => execGetcfg_of_memRead ?_⟩
  refine (memRead_ok_iff ..).2 ⟨.inr (by decide), rfl, fun k hk => ?_⟩
  match k, hk with
  | 0, _ => exact h1
  | 1, _ => exact h2
  | 2, _ => exact h3
  | 3, _ => exact h4

/-- Settles O23: outside the range `execGetcyc_badLength`, inside it `execGetcyc_of_read`. -/
theorem getcycReturnsTheCyclicWords : Obligations.GetcycReturnsTheCyclicWords :=
  ⟨by rintro ⟨⟩ rfl; rfl, fun _ _ _ => ⟨execGetcyc_badLength, fun _ hmin hmax hl hread =>
    execGetcyc_of_read (by omega) hmax hread⟩⟩

/-- Settles O24: the words read are among FB[0..4], so each decoder goes on to its answer. -/
theorem fixedDecodersAlwaysEndOk : Obligations.FixedDecodersAlwaysEndOk := by
  intro s i hwritten hi
  obtain ⟨h, hheader⟩ := Option.isSome_iff_exists.1 (hwritten 0 (by decide))
  obtain ⟨ws, hconfig⟩ : ∃ ws, memRead s.fb 1 4 = .ok ws :=
    memRead_of_written (by decide) fun k hk => hwritten (1 + k) (by omega)
  rcases hi with rfl | rfl | rfl | rfl
  · exact ⟨_, execGetaddr_of_read hheader, rfl⟩
  · exact ⟨_, execGetcmd_of_read hheader, rfl⟩
  · exact ⟨_, execGetseg_of_read hheader, rfl⟩
  · exact ⟨_, execGetcfg_of_memRead hconfig, rfl⟩

/-- Settles O26: the answered size is the true length of the frame in FB, and its `n` cyclic words are `cyc`. -/
theorem getcycReturnsWhatConstructPacked : Obligations.GetcycReturnsWhatConstructPacked := by
  intro addr cmd seg cfg n cyc chk s t z ht hr
  obtain ⟨-, hfits, hn, hsize, hfb⟩ := construct_ok_frame ht hr rfl
  cases hsize
  simp only [frameSize, Config.headerWords, Config.configWords, Config.capacity] at hfits ⊢
  have hz : (BitVec.ofNat 8 (1 + 4 + n.toNat + chk.toNat)).toNat = 1 + 4 + n.toNat + chk.toNat :=
    Nat.mod_eq_of_lt (by omega)
  have hread (k : Nat) (hk : k < cyc.length) : t.fb.read (5 + k) = cyc[k]? :=
    hfb ▸ read_frame_cyclic _ _ _ cfg.length_toList _ _ hk
  rw [execGetcyc_of_read (by omega) (by omega) hread, hn, BitVec.ofNat_toNat, BitVec.setWidth_eq]

end Sys2Proof.Machine
end

section
/-! CHK16 (spec/42_checksum.md R141 to R144). A turn of the register says which bit it fed back and keeps what it did
not shift out, so 16 turns say which 16 bits were fed in, and no turn maps two registers to one. -/

namespace Sys2Proof

/-- Settles O34: the function evaluated on each list (spec/95_test_vectors.md 2.4). -/
theorem chk16HasItsVectors : Obligations.Chk16HasItsVectors := by
  unfold Obligations.Chk16HasItsVectors
  decide +kernel

section
variable {crc crc' : Word} {b b' : Bool}

/-- The feedback bit is bit 0 of the register after a turn, since bit 0 of 0x1021 is set (R141). -/
theorem getLsbD_crcBit_zero : (crcBit crc b).getLsbD 0 = (crc.getLsbD 15 != b) := by
  unfold crcBit
  split
  next hfb => rw [hfb, BitVec.getLsbD_xor]; simp
  next hfb => rw [Bool.eq_false_iff.2 hfb]; simp

/-- Any other bit is the one below it before the turn, flipped where the feedback bit meets a bit of 0x1021
(R141). -/
theorem getLsbD_crcBit_succ {i : Nat} (hi : i < 15) :
    (crcBit crc b).getLsbD (i + 1) =
      (crc.getLsbD i != ((crcBit crc b).getLsbD 0 && (0x1021 : Word).getLsbD (i + 1))) := by
  have hshift : (crc <<< 1).getLsbD (i + 1) = crc.getLsbD i := by simp; omega
  rw [getLsbD_crcBit_zero]
  unfold crcBit
  split
  next hfb => rw [hfb, BitVec.getLsbD_xor, hshift]; simp
  next hfb => rw [Bool.eq_false_iff.2 hfb, hshift]; simp

/-- The registers agree in their low `k` bits. -/
abbrev AgreeBelow (k : Nat) (crc crc' : Word) : Prop := ∀ i, i < k → crc.getLsbD i = crc'.getLsbD i

/-- A turn seen from its end: registers that agree below `k + 1` after it had one feedback bit, and agreed below `k`
before it. -/
theorem agreeBelow_of_crcBit {k : Nat} (hk : k ≤ 15) (h : AgreeBelow (k + 1) (crcBit crc b) (crcBit crc' b')) :
    (crc.getLsbD 15 != b) = (crc'.getLsbD 15 != b') ∧ AgreeBelow k crc crc' := by
  have h0 := h 0 (Nat.zero_lt_succ k)
  refine ⟨by rwa [getLsbD_crcBit_zero, getLsbD_crcBit_zero] at h0, fun i hi => ?_⟩
  have hi' := h (i + 1) (Nat.succ_lt_succ hi)
  rwa [getLsbD_crcBit_succ (by omega), getLsbD_crcBit_succ (by omega), h0, Bool.bne_left_inj] at hi'

/-- No turn maps two registers to one. -/
theorem crcBit_injective (b : Bool) : Function.Injective (crcBit · b) := fun crc crc' h => by
  obtain ⟨htop, hlow⟩ := agreeBelow_of_crcBit (Nat.le_refl 15) fun i _ => congrArg (·.getLsbD i) h
  refine BitVec.eq_of_getLsbD_eq fun i hi => ?_
  rcases Nat.lt_or_eq_of_le (Nat.le_of_lt_succ hi) with h15 | rfl
  · exact hlow i h15
  · exact Bool.bne_left_inj.1 htop

end

/-- As many turns as leave `k` of 16: registers that end equal agreed below `k`, whatever bits were fed in. -/
theorem agreeBelow_of_foldl_crcBit {k : Nat} :
    ∀ {bs bs' : List Bool} {crc crc' : Word}, bs.length = bs'.length → bs.length + k ≤ 16 →
      bs.foldl crcBit crc = bs'.foldl crcBit crc' → AgreeBelow k crc crc'
  | [], [], _, _, _, _, h => fun i _ => congrArg (·.getLsbD i) h
  | b :: bs, b' :: bs', crc, crc', hl, hk, h => by
    simp only [List.length_cons] at hl hk
    exact (agreeBelow_of_crcBit (by omega) (agreeBelow_of_foldl_crcBit (by omega) (by omega) h)).2

/-- From one register, up to 16 bits fed in are determined by the register they end in. -/
theorem eq_of_foldl_crcBit :
    ∀ {bs bs' : List Bool} {crc : Word}, bs.length = bs'.length → bs.length ≤ 16 →
      bs.foldl crcBit crc = bs'.foldl crcBit crc → bs = bs'
  | [], [], _, _, _, _ => rfl
  | b :: bs, b' :: bs', crc, hl, h16, h => by
    simp only [List.length_cons, Nat.add_right_cancel_iff] at hl h16
    obtain ⟨hfb, -⟩ := agreeBelow_of_crcBit (k := 0) (by omega) (agreeBelow_of_foldl_crcBit hl h16 h)
    obtain rfl := Bool.bne_right_inj.1 hfb
    rw [eq_of_foldl_crcBit hl (by omega) h]

/-- A word is determined by its bits in the order CHK16 takes them. -/
theorem wordBits_injective : Function.Injective wordBits := fun w w' h => by
  refine BitVec.eq_of_getLsbD_eq fun i hi => List.map_inj_left.1 h i ?_
  simp only [List.mem_cons, List.not_mem_nil, or_false]
  omega

theorem crcWord_right_injective (crc : Word) : Function.Injective (crcWord crc) := fun _ _ h =>
  wordBits_injective (eq_of_foldl_crcBit rfl (Nat.le_refl 16) h)

/-- A fold whose every step is injective in the accumulator is injective in its start. -/
theorem foldl_left_injective {α β : Type} {f : α → β → α} (hf : ∀ b, Function.Injective (f · b))
    (bs : List β) : Function.Injective (bs.foldl f ·) := by
  induction bs with
  | nil => exact Function.injective_id
  | cons b bs ih => exact ih.comp (hf b)

theorem crcWord_left_injective (w : Word) : Function.Injective (crcWord · w) :=
  foldl_left_injective crcBit_injective (wordBits w)

/-- From any register, one word replaced by another ends CHK16's loop in another register. -/
theorem foldl_crcWord_set_ne : ∀ {ws : List Word} {crc : Word} {j : Nat} {e : Word}, j < ws.length →
    ws[j]? ≠ some e → (ws.set j e).foldl crcWord crc ≠ ws.foldl crcWord crc
  | _ :: ws, crc, 0, _, _, hne => fun h =>
    hne (congrArg some (crcWord_right_injective crc (foldl_left_injective crcWord_left_injective ws h)).symm)
  | _ :: ws, _, j + 1, _, hj, hne => foldl_crcWord_set_ne (ws := ws) (j := j) (Nat.lt_of_succ_lt_succ hj) hne

/-- Settles O31: R144, by going back through the turns instead of by the degree of a polynomial. -/
theorem chk16DetectsSingleWordChanges : Obligations.Chk16DetectsSingleWordChanges :=
  fun _ _ _ hj hne => foldl_crcWord_set_ne hj hne

/-- CHK16's step over a word is the byte step over its high byte and then its low byte: the bits are the same
(R142). -/
theorem crcWord_eq_foldl_crcByte (crc w : Word) : crcWord crc w = (bytesHighFirst w).foldl crcByte crc := by
  have hbits : wordBits w = (bytesHighFirst w).flatMap byteBits := by
    simp [wordBits, byteBits, bytesHighFirst]
  rw [crcWord, hbits, List.foldl_flatMap]
  rfl

/-- Settles O33: word by word for the list; the check value is evaluated. -/
theorem chk16IsItsByteForm : Obligations.Chk16IsItsByteForm := by
  refine ⟨fun ws => ?_, by decide +kernel⟩
  calc chk16 ws = ws.foldl (fun crc w => (bytesHighFirst w).foldl crcByte crc) 0xFFFF :=
        congrArg (ws.foldl · 0xFFFF) (funext₂ crcWord_eq_foldl_crcByte)
    _ = chk16Bytes (Machine.wireBytes .highFirst ws) := List.foldl_flatMap.symm

end Sys2Proof
end

section
/-! CHECK on written words (spec/42_checksum.md R145 to R149). Its two outcomes are `verify_ok_valid` and
`verify_ok_invalid`. A word that WRW changes in a frame is one of the words the checksum is of, or the checksum
word. -/

namespace Sys2Proof.Machine

section
variable {f : List Word → Word} {len : BitVec 8} {s : State} {ws : List Word} {w : Word}

/-- CHECK of a length no frame with a checksum has (R145). -/
theorem verify_badLength (h : len.toNat < 6 ∨ len.toNat > 128) :
    verify f len s = .next { s with resp := some { status := .badLength, valid := some 0 } } :=
  if_pos h

/-- Where the checksum of the words before the last is the last, CHECK finds them valid (R145). -/
theorem verify_ok_valid (h6 : 6 ≤ len.toNat) (h128 : len.toNat ≤ 128)
    (hws : memRead s.fb 0 (len.toNat - 1) = .ok ws) (hw : s.fb.read (len.toNat - 1) = some w) (heq : f ws = w) :
    verify f len s = .next { s with resp := some { status := .ok, valid := some 1 } } := by
  rw [verify_eq h6 h128 hws hw, beq_iff_eq.2 heq]
  rfl

/-- Where it is not, the answer is `valid` = 0, with status OK (R146). -/
theorem verify_ok_invalid (h6 : 6 ≤ len.toNat) (h128 : len.toNat ≤ 128)
    (hws : memRead s.fb 0 (len.toNat - 1) = .ok ws) (hw : s.fb.read (len.toNat - 1) = some w) (hne : f ws ≠ w) :
    verify f len s = .next { s with resp := some { status := .ok, valid := some 0 } } := by
  rw [verify_eq h6 h128 hws hw, beq_eq_false_iff_ne.2 hne]
  rfl

/-- Which words MemRead and the last read give decides whether they carry their checksum (R147). -/
theorem carriesChecksum_iff {fb : Memory} {size : Nat} (hws : memRead fb 0 (size - 1) = .ok ws)
    (hw : fb.read (size - 1) = some w) : CarriesChecksum f fb size ↔ f ws = w := by
  simp [CarriesChecksum, hws, hw, eq_comm]

end

/-- Settles O27: the words before the last are what MemRead answers, and CHECK compares their checksum. -/
theorem checkComparesTheStoredChecksum : Obligations.CheckComparesTheStoredChecksum := by
  refine ⟨by rintro ⟨⟩ rfl; rfl, fun s len => ⟨verify_badLength, ?_⟩⟩
  intro ws stored h6 h128 hl hread hstored
  have hws : memRead s.fb 0 (len.toNat - 1) = .ok ws :=
    (memRead_ok_iff ..).2 ⟨.inr (by simp only [Config.capacity]; omega), hl, fun k hk => by
      rw [Nat.zero_add, hread k (hl ▸ hk)]⟩
  exact ⟨verify_ok_valid h6 h128 hws hstored, verify_ok_invalid h6 h128 hws hstored⟩

/-- Settles O28: the words are written, so CHECK compares them, and so does `CarriesChecksum`. -/
theorem checkAnswersWhetherAChecksumIsCarried : Obligations.CheckAnswersWhetherAChecksumIsCarried := by
  intro s len h6 h128 hplaced
  obtain ⟨ws, hws⟩ : ∃ ws, memRead s.fb 0 (len.toNat - 1) = .ok ws :=
    memRead_of_written (by simp only [Config.capacity]; omega) fun k hk => hplaced (0 + k) (by omega)
  obtain ⟨w, hw⟩ := Option.isSome_iff_exists.1 (hplaced (len.toNat - 1) (by omega))
  rw [carriesChecksum_iff hws hw]
  by_cases heq : Config.checkFn ws = w
  · exact ⟨1, verify_ok_valid h6 h128 hws hw heq, by simp [heq]⟩
  · exact ⟨0, verify_ok_invalid h6 h128 hws hw heq, by simp [heq]⟩

/-- The frame of a CONSTRUCT with a checksum that answers OK has a length CHECK takes, and carries its checksum (R105,
R106). -/
theorem construct_carriesChecksum {f : List Word → Word} {addr : BitVec 12} {cmd : BitVec 8} {seg : Bit}
    {cfg : Vector Word 4} {n : BitVec 8} {cyc : List Word} {s t : State} {z : BitVec 8}
    (h : construct f addr cmd seg cfg n cyc 1 s = .next t) (hr : t.resp = some { status := .ok, size := some z }) :
    6 ≤ z.toNat ∧ z.toNat ≤ 128 ∧ CarriesChecksum f t.fb z.toNat := by
  obtain ⟨-, hfits, hn, hsize, hfb⟩ := construct_ok_frame h hr rfl
  have hsum : frameSize n 1 = 6 + cyc.length := by simp [frameSize, hn]; omega
  cases hsize
  rw [hsum, Config.capacity] at hfits
  have hz : (BitVec.ofNat 8 (frameSize n 1)).toNat = 6 + cyc.length :=
    hsum.symm ▸ Nat.mod_eq_of_lt (a := 6 + cyc.length) (b := 2 ^ 8) (by omega)
  have hlast : 6 + cyc.length - 1 = 5 + cyc.length := by omega
  rw [hz, hfb, CarriesChecksum, hlast]
  exact ⟨Nat.le_add_right .., hfits, _,
    memRead_frame_body _ _ _ cfg.length_toList _ _ (by rw [Config.capacity]; omega),
    read_frame_checksum _ _ _ cfg.length_toList _⟩

/-- Settles O29: the frame carries its checksum, whatever the checksum function, and FB is as it was. -/
theorem checkAcceptsEveryConstructedFrame : Obligations.CheckAcceptsEveryConstructedFrame := by
  intro f addr cmd seg cfg n cyc s t u z ht hr hu
  obtain ⟨h6, h128, ws, hws, hw⟩ := construct_carriesChecksum ht hr
  exact verify_ok_valid h6 h128 (hu ▸ hws) (hu ▸ hw) rfl

/-- MemRead over a word just written: the words read before, with that one replaced where it is among them (R12). -/
theorem memRead_write {fb : Memory} {i n : Nat} {ws : List Word} (h : memRead fb i n = .ok ws) (j : Nat) (e : Word) :
    memRead (fb.write (i + j) e) i n = .ok (ws.set j e) := by
  obtain ⟨hn, hl, hread⟩ := (memRead_ok_iff ..).1 h
  refine (memRead_ok_iff ..).2 ⟨hn, by rw [List.length_set, hl], fun k hk => ?_⟩
  rw [Memory.read_write, List.getElem?_set, ← hread k hk, hl]
  by_cases hkj : k = j
  · rw [if_pos (hkj ▸ rfl), if_pos hkj.symm, if_pos (hkj ▸ hk)]
  · rw [if_neg (mt Nat.add_left_cancel hkj), if_neg (Ne.symm hkj)]

/-- Words that carry their checksum, one of them changed, are no longer valid (R149). -/
theorem verify_of_one_changed_word {f : List Word → Word} (hf : DetectsSingleWord f) {len : BitVec 8} {fb : Memory}
    {u : State} {j : Nat} {e : Word} (h6 : 6 ≤ len.toNat) (h128 : len.toNat ≤ 128)
    (hsum : CarriesChecksum f fb len.toNat) (hj : j < len.toNat) (hne : fb.read j ≠ some e)
    (hu : u.fb = fb.write j e) :
    verify f len u = .next { u with resp := some { status := .ok, valid := some 0 } } := by
  obtain ⟨ws, hws, hw⟩ := hsum
  obtain ⟨-, hl, hread⟩ := (memRead_ok_iff ..).1 hws
  have hbody : memRead u.fb 0 (len.toNat - 1) = .ok (ws.set j e) := by
    simpa only [hu, Nat.zero_add] using memRead_write hws j e
  by_cases hlast : j = len.toNat - 1
  case pos =>
    have hstored : u.fb.read (len.toNat - 1) = some e := by rw [hu, hlast, Memory.read_write_same]
    refine verify_ok_invalid h6 h128 hbody hstored fun h => hne ?_
    rw [List.set_eq_of_length_le (by omega)] at h
    rw [hlast, hw, h]
  case neg =>
    have hstored : u.fb.read (len.toNat - 1) = some (f ws) := by rw [hu, Memory.read_write_ne _ _ (Ne.symm hlast), hw]
    have hold : ws[j]? ≠ some e := by rwa [← hread j (by omega), Nat.zero_add]
    exact verify_ok_invalid h6 h128 hbody hstored (hf ws j e (by omega) hold)

/-- Settles O30: the frame carries its checksum, and WRW changes one of its words. -/
theorem checkRejectsOneChangedWord : Obligations.CheckRejectsOneChangedWord := by
  intro f hf addr cmd seg cfg n cyc s t u z j e ht hr hj hne hu
  obtain ⟨h6, h128, hsum⟩ := construct_carriesChecksum ht hr
  cases (execWrw_eq j e t).symm.trans hu
  exact verify_of_one_changed_word hf h6 h128 hsum hj hne rfl

/-- Settles O32: O30 with the configured checksum function, which meets P4 by O31. -/
theorem machineRejectsOneChangedWord : Obligations.MachineRejectsOneChangedWord :=
  checkRejectsOneChangedWord Config.checkFn chk16DetectsSingleWordChanges

end Sys2Proof.Machine
end

section
/-! The host port (spec/43_buffer_access.md R160 to R162): one word read, one word written, and a frame received by
writing and transmitted by reading, word after word. -/

namespace Sys2Proof.Machine

section
variable {s : State}

/-- RDW of a written word answers it (R160). -/
theorem execRdw_of_read {idx : BitVec 7} {w : Word} (h : s.fb.read idx.toNat = some w) :
    exec (.rdw idx) s = .next { s with resp := some { status := .ok, data := some w } } :=
  readWordThen_some _ idx.isLt h

/-- Where the first operation completes, the others go on from there, and its response is the first (R60). -/
theorem performAll_cons {i : Instr} {is : List Instr} {t u : State} {r : Response} {rs : List Response}
    (hi : exec i s = .next t) (hr : t.resp = some r) (his : performAll is t = .next (rs, u)) :
    performAll (i :: is) s = .next (r :: rs, u) := by
  simp [performAll, hi, hr, his]

/-- Receiving words completes with FB holding them from index `i` on (R162). -/
theorem performAll_receiveFrom {ws : List Word} : ∀ {i : Nat} {s : State}, i + ws.length ≤ 128 →
    ∃ rs t, performAll (receiveFrom i ws) s = .next (rs, t) ∧ t.fb = s.fb.writeList i ws := by
  induction ws with
  | nil => exact fun _ => ⟨_, _, rfl, rfl⟩
  | cons w ws ih =>
    intro i s hi
    rw [List.length_cons] at hi
    have hidx : (BitVec.ofNat 7 i).toNat = i := Nat.mod_eq_of_lt (by omega)
    obtain ⟨rs, t, hrest, hfb⟩ := ih (i := i + 1)
      (s := { s with fb := s.fb.write (BitVec.ofNat 7 i).toNat w, resp := some { status := .ok } }) (by omega)
    exact ⟨_, t, performAll_cons (execWrw_eq _ w s) rfl hrest, by rw [hfb, hidx]; rfl⟩

/-- RDWs of written words answer them in order and leave FB as it is (R160, R162). -/
theorem performAll_rdw {ks : List (BitVec 7)} : ∀ {ws : List Word} {s : State},
    List.Forall₂ (fun k w => s.fb.read k.toNat = some w) ks ws →
    ∃ rs t, performAll (ks.map .rdw) s = .next (rs, t) ∧ readOut rs = ws ∧ t.fb = s.fb := by
  induction ks with
  | nil => rintro _ s ⟨⟩; exact ⟨_, s, rfl, rfl, rfl⟩
  | cons k ks ih =>
    rintro _ s (_ | @⟨_, w, _, ws, hk, hks⟩)
    obtain ⟨rs, t, hrest, hout, hfb⟩ := ih (s := { s with resp := some { status := .ok, data := some w } }) hks
    exact ⟨_, t, performAll_cons (execRdw_of_read hk) rfl hrest, congrArg (w :: ·) hout, hfb⟩

/-- Transmitting the words that stand in FB from index 0 on reads them out (R162). -/
theorem performAll_transmitFrame {ws : List Word} (hlen : ws.length ≤ 128)
    (hread : ∀ k, k < ws.length → s.fb.read k = ws[k]?) :
    ∃ rs t, performAll (transmitFrame ws.length) s = .next (rs, t) ∧ readOut rs = ws ∧ t.fb = s.fb := by
  have hwords : List.Forall₂ (fun k w => s.fb.read k.toNat = some w)
      ((List.range ws.length).map (BitVec.ofNat 7)) ws := by
    refine List.forall₂_iff_get.2 ⟨by simp, fun k _ hk => ?_⟩
    have hidx : (BitVec.ofNat 7 k).toNat = k := Nat.mod_eq_of_lt (by omega)
    simpa [hidx, hk] using hread k hk
  simpa [transmitFrame, Function.comp_def] using performAll_rdw hwords

end

/-- Settles O39: FB holds the words received, and transmitting reads out what it holds. -/
theorem receivedFramesReadBack : Obligations.ReceivedFramesReadBack := by
  intro ws s hlen
  obtain ⟨rs, t, hrecv, hfb⟩ := performAll_receiveFrom (ws := ws) (i := 0) (s := s) (by omega)
  have hin (k : Nat) (hk : k < ws.length) : t.fb.read k = ws[k]? := by
    rw [hfb, Memory.read_writeList, if_pos (by omega), Nat.sub_zero]
  have hout (k : Nat) (hk : ws.length ≤ k) : t.fb.read k = s.fb.read k := by
    rw [hfb, Memory.read_writeList_outside _ _ (.inr (by omega))]
  exact ⟨rs, t, hrecv, hin, hout, performAll_transmitFrame hlen hin⟩

/-- Settles O35. -/
theorem rdwReturnsTheWord : Obligations.RdwReturnsTheWord :=
  ⟨by rintro ⟨⟩ rfl; rfl, fun _ _ _ hr => execRdw_of_read hr⟩

/-- Settles O36: WRW is `execWrw_eq`, and the word written a second time is the one that stands there. -/
theorem wrwWritesOneWord : Obligations.WrwWritesOneWord := by
  refine ⟨by rintro ⟨⟩ rfl; rfl, fun s idx data => ⟨_, execWrw_eq idx data s, rfl, Memory.read_write_same ..,
    fun _ hk => Memory.read_write_ne _ _ hk, rfl, rfl, ?again⟩⟩
  case again => exact (execWrw_eq idx data _).trans (by rw [Memory.write_write_same])

/-- Settles O38: each row receives the header word packed with its code, and GETCMD answers the code's kind. -/
theorem headerWordsAreReceivedIntoFirstWord : Obligations.HeaderWordsAreReceivedIntoFirstWord := by
  intro addr seg s i c k hrow
  obtain ⟨hexec, hrec, hkind⟩ : exec i s = receiveHeader (packHeader addr seg c) s ∧
      recognized c.toNat = true ∧ kind c.toNat = k := by
    simp only [List.mem_cons, Prod.mk.injEq, List.not_mem_nil, or_false] at hrow
    rcases hrow with ⟨rfl, rfl, rfl⟩ | ⟨rfl, rfl, rfl⟩ | ⟨rfl, rfl, rfl⟩ | ⟨rfl, rfl, rfl⟩ | ⟨rfl, rfl, rfl⟩ |
      ⟨rfl, rfl, rfl⟩ <;> exact ⟨rfl, rfl, rfl⟩
  have hread := Memory.read_write_same s.fb 0 (packHeader addr seg c)
  refine ⟨_, hexec.trans (receiveHeader_eq _ s), rfl, hread, fun _ hj => Memory.read_write_ne _ _ hj, rfl, rfl, ?_⟩
  rw [execGetcmd_of_read hread, hdrCmd_packHeader, hrec, hkind]
  rfl

end Sys2Proof.Machine
end

section
/-! Status codes (spec/60_exceptions.md R180 to R183). `Fails` lists the failing answers with their causes; an
operation that completes gives one of them and leaves FB, or answers OK and has none. -/

namespace Sys2Proof

/-- Only a reserved select code is no instruction (R81). -/
theorem reserved_of_decodeRequest_error {r : Request} {e : DecodeError} (h : decodeRequest r = .error e) :
    r.op.toNat = 0 ∨ 10 ≤ r.op.toNat := by
  unfold decodeRequest at h
  split at h
  case h_10 => simp only [imp_false] at *; omega
  all_goals cases h

namespace Machine

/-- Which operation answers which error for which cause (R180), with the fields its rule sets on failure (R182). -/
inductive Fails : Instr → Response → Prop
  | invalidCommand {addr : BitVec 12} {cmd : BitVec 8} {seg : Bit} {cfg : Vector Word 4} {n : BitVec 8}
      {cyc : List Word} {chk : Bit} (hc : cmd.toNat ∉ [1, 2, 3, 5, 6, 7]) :
      Fails (.construct addr cmd seg cfg n cyc chk) { status := .invalidCommand, size := some 0 }
  | oversizedPayload {addr : BitVec 12} {cmd : BitVec 8} {seg : Bit} {cfg : Vector Word 4} {n : BitVec 8}
      {cyc : List Word} {chk : Bit} (hc : cmd.toNat ∈ [1, 2, 3, 5, 6, 7])
      (hs : 1 + 4 + n.toNat + chk.toNat > 128) :
      Fails (.construct addr cmd seg cfg n cyc chk) { status := .oversizedPayload, size := some 0 }
  | getcycBadLength {len : BitVec 8} {haschk : Bit}
      (hlen : ¬ (5 + haschk.toNat ≤ len.toNat ∧ len.toNat ≤ 128)) :
      Fails (.getcyc len haschk) { status := .badLength, size := some 0, words := some [] }
  | checkBadLength {len : BitVec 8} (hlen : ¬ (6 ≤ len.toNat ∧ len.toNat ≤ 128)) :
      Fails (.check len) { status := .badLength, valid := some 0 }

section
variable {i : Instr} {s t : State} {r : Response}

/-- An operation that completes failed for its cause and left FB, or answers OK with no cause to fail
(R180, R183). -/
theorem exec_fails_or_ok (ht : exec i s = .next t) (hr : t.resp = some r) :
    (Fails i r ∧ t.fb = s.fb) ∨ (r.status = .ok ∧ ∀ q, ¬ Fails i q) := by
  cases i with
  | construct addr cmd seg cfg n cyc chk =>
    obtain ⟨-, ⟨hc, rfl⟩ | ⟨hc, hs, rfl⟩ | ⟨hc, hs, rfl⟩⟩ := construct_next ht
    · cases hr; exact .inl ⟨.invalidCommand (mt recognized_iff_mem.2 (Bool.eq_false_iff.1 hc)), rfl⟩
    · cases hr; exact .inl ⟨.oversizedPayload (recognized_iff_mem.1 hc) hs, rfl⟩
    · cases hr
      refine .inr ⟨rfl, fun q hq => ?_⟩
      cases hq with
      | invalidCommand hbad => exact hbad (recognized_iff_mem.1 hc)
      | oversizedPayload _ hbig => exact Nat.not_le.2 hbig hs
  | getcyc len haschk =>
    obtain ⟨hbad, rfl⟩ | ⟨hmin, hmax, ws, -, rfl⟩ := execGetcyc_next ht
    · cases hr; exact .inl ⟨.getcycBadLength (by omega), rfl⟩
    · cases hr; exact .inr ⟨rfl, fun q (.getcycBadLength hlen) => hlen ⟨hmin, hmax⟩⟩
  | check len =>
    obtain ⟨hbad, rfl⟩ | ⟨hmin, hmax, ws, w, -, -, rfl⟩ := verify_next ht
    · cases hr; exact .inl ⟨.checkBadLength (by omega), rfl⟩
    · cases hr; exact .inr ⟨rfl, fun q (.checkBadLength hlen) => hlen ⟨hmin, hmax⟩⟩
  | getcfg =>
    obtain ⟨ws, -, rfl⟩ := execGetcfg_next ht
    cases hr; exact .inr ⟨rfl, fun q hq => nomatch hq⟩
  | getaddr | getcmd | getseg | rdw =>
    obtain ⟨b, ws, _, -, ⟨_, rfl⟩, rfl⟩ := exec_next ht
    cases hr; exact .inr ⟨rfl, fun q hq => nomatch hq⟩
  | wrw | hdrRead | hdrWrite | hdrAck | hdrReadError | hdrWriteError | hdrIdle =>
    obtain ⟨b, ws, _, -, rfl, rfl⟩ := exec_next ht
    cases hr; exact .inr ⟨rfl, fun q hq => nomatch hq⟩

/-- A request has one failing answer at most: INVALID_COMMAND comes before OVERSIZED_PAYLOAD (R184). -/
theorem Fails.unique {q q' : Response} (h : Fails i q) (h' : Fails i q') : q = q' := by
  cases h with
  | invalidCommand hc =>
    cases h' with
    | invalidCommand => rfl
    | oversizedPayload hc' => exact absurd hc' hc
  | oversizedPayload hc =>
    cases h' with
    | invalidCommand hc' => exact absurd hc hc'
    | oversizedPayload => rfl
  | getcycBadLength => cases h'; rfl
  | checkBadLength => cases h'; rfl

/-- An error status has its cause, and then FB is as it was (R180, R183). -/
theorem fails_of_status_ne_ok (ht : exec i s = .next t) (hr : t.resp = some r) (hst : r.status ≠ .ok) :
    Fails i r ∧ t.fb = s.fb :=
  (exec_fails_or_ok ht hr).resolve_right fun ⟨hok, _⟩ => hst hok

/-- An operation that completes answers an error status exactly where it has a cause for that status (R180). -/
theorem status_eq_iff_fails {st : Status} (hst : st ≠ .ok) (ht : exec i s = .next t) (hr : t.resp = some r) :
    r.status = st ↔ ∃ q, Fails i q ∧ q.status = st := by
  constructor
  · rintro rfl
    exact ⟨r, (fails_of_status_ne_ok ht hr hst).1, rfl⟩
  · rintro ⟨q, hq, rfl⟩
    obtain ⟨hf, -⟩ | ⟨-, hnone⟩ := exec_fails_or_ok ht hr
    · rw [hf.unique hq]
    · exact absurd hq (hnone q)

/-- No instruction answers ILLEGAL_OP: it is decided before there is one (R184). -/
theorem status_ne_illegalOp (ht : exec i s = .next t) (hr : t.resp = some r) : r.status ≠ .illegalOp := by
  intro h
  obtain ⟨q, hq, hst⟩ := (status_eq_iff_fails (by decide) ht hr).1 h
  cases hq <;> cases hst

/-- ILLEGAL_OP answers the reserved select codes and nothing else (R81, R180). -/
theorem status_eq_illegalOp_iff {q : Request} (ht : perform (.request q) s = .next t) (hr : t.resp = some r) :
    r.status = .illegalOp ↔ q.op.toNat = 0 ∨ 10 ≤ q.op.toNat := by
  cases hd : decodeRequest q with
  | ok i =>
    rw [perform_of_decode (p := .request q) hd] at ht
    refine iff_of_false (status_ne_illegalOp ht hr) fun hop => ?_
    cases hd.symm.trans (decodeRequest_reserved hop)
  | error e =>
    rw [perform_of_decode_error (p := .request q) hd] at ht
    cases decodeRequest_error hd
    cases raise_next ht
    cases hr
    exact iff_of_true rfl (reserved_of_decodeRequest_error hd)

end

/-- Settles O42: each status is answered exactly for its causes in `Fails`. -/
theorem statusesHaveTheirCauses : Obligations.StatusesHaveTheirCauses := by
  refine ⟨⟨rfl, rfl, rfl, rfl, rfl⟩, fun i s t r ht hr =>
    ⟨?invalid, ?oversized, ?length, status_ne_illegalOp ht hr⟩, fun q s t r => status_eq_illegalOp_iff⟩
  case invalid =>
    rw [status_eq_iff_fails (by decide) ht hr]
    constructor
    · rintro ⟨_, hq, hst⟩
      cases hq with
      | invalidCommand hc => exact ⟨_, _, _, _, _, _, _, rfl, hc⟩
      | _ => cases hst
    · rintro ⟨_, _, _, _, _, _, _, rfl, hc⟩
      exact ⟨_, .invalidCommand hc, rfl⟩
  case oversized =>
    rw [status_eq_iff_fails (by decide) ht hr]
    constructor
    · rintro ⟨_, hq, hst⟩
      cases hq with
      | oversizedPayload hc hs => exact ⟨_, _, _, _, _, _, _, rfl, hc, hs⟩
      | _ => cases hst
    · rintro ⟨_, _, _, _, _, _, _, rfl, hc, hs⟩
      exact ⟨_, .oversizedPayload hc hs, rfl⟩
  case length =>
    rw [status_eq_iff_fails (by decide) ht hr]
    constructor
    · rintro ⟨_, hq, hst⟩
      cases hq with
      | checkBadLength hlen => exact .inl ⟨_, rfl, hlen⟩
      | getcycBadLength hlen => exact .inr ⟨_, _, rfl, hlen⟩
      | _ => cases hst
    · rintro (⟨_, rfl, hlen⟩ | ⟨_, _, rfl, hlen⟩)
      · exact ⟨_, .checkBadLength hlen, rfl⟩
      · exact ⟨_, .getcycBadLength hlen, rfl⟩

/-- Settles O43: each failing answer of `Fails` sets size 0, no words and valid 0 where it sets them. -/
theorem failingOperationsWriteNothing : Obligations.FailingOperationsWriteNothing := by
  intro i s t r ht hr hst
  obtain ⟨hf, hfb⟩ := fails_of_status_ne_ok ht hr hst
  refine ⟨hfb, ?_⟩
  cases hf <;> simp

end Machine

end Sys2Proof
end

section
/-! Reset and reads of unwritten words (spec/70_reset_and_hazards.md R200, R201, R203). An operation faults exactly
where a word it reads is unwritten, and it only adds to the written words. -/

namespace Sys2Proof.Machine

section
variable {i : Instr} {s t : State} {k : Nat}

/-- Going on with a written word faults only where the continuation does. -/
theorem readWordThen_ne_fault {b : Nat} {g : Word → Host.Outcome State Fault Refusal} {f : Fault} (hb : b < 128)
    (hw : s.fb.written b = true) (hg : ∀ w, g w ≠ .fault f) : readWordThen s b g ≠ .fault f := by
  obtain ⟨w, hr⟩ := Option.isSome_iff_exists.1 hw
  rw [readWordThen_some g hb hr]
  exact hg w

/-- Going on with written words faults only where the continuation does. -/
theorem readThen_ne_fault {b n : Nat} {g : List Word → Host.Outcome State Fault Refusal} {f : Fault}
    (hn : b + n ≤ 128) (hw : ∀ j, j < n → s.fb.written (b + j) = true) (hg : ∀ ws, g ws ≠ .fault f) :
    readThen s b n g ≠ .fault f := by
  obtain ⟨ws, hr⟩ := memRead_of_written hn hw
  rw [readThen_of_memRead g hr]
  exact hg ws

theorem respond_ne_fault (q : Response) (f : Fault) : respond q s ≠ .fault f := nofun

theorem receiveHeader_ne_fault (w : Word) (f : Fault) : receiveHeader w s ≠ .fault f := by
  rw [receiveHeader_eq]; exact nofun

/-- CONSTRUCT reads only what it has just written, so it is no fault (R104, R105). -/
theorem construct_ne_fault {c : List Word → Word} {addr : BitVec 12} {cmd : BitVec 8} {seg : Bit}
    {cfg : Vector Word 4} {n : BitVec 8} {cyc : List Word} {chk : Bit} (f : Fault) :
    construct c addr cmd seg cfg n cyc chk s ≠ .fault f := by
  by_cases hl : cyc.length = cyclicWordsRead n
  · cases hc : recognized cmd.toNat with
    | false => rw [construct_invalid hl hc]; exact nofun
    | true =>
      by_cases hs : frameSize n chk ≤ Config.capacity
      · rw [construct_accepted hl hc hs]; exact nofun
      · rw [construct_oversized hl hc (by omega)]; exact nofun
  · rw [construct_refused hl]; exact nofun

/-- An operation whose words are written is no fault (R201). -/
theorem exec_ne_fault (h : ∀ k, Reads i k → s.fb.written k = true) (f : Fault) : exec i s ≠ .fault f := by
  cases i with
  | construct addr cmd seg cfg n cyc chk => exact construct_ne_fault f
  | getaddr | getcmd | getseg =>
    exact readWordThen_ne_fault (b := 0) (by decide) (h 0 rfl) fun _ => respond_ne_fault _ f
  | rdw idx => exact readWordThen_ne_fault idx.isLt (h _ rfl) fun _ => respond_ne_fault _ f
  | getcfg =>
    exact readThen_ne_fault (b := 1) (n := 4) (by decide) (fun j hj => h _ ⟨Nat.le_add_right 1 j, by omega⟩)
      fun _ => respond_ne_fault _ f
  | getcyc len haschk =>
    simp only [exec, execGetcyc]
    split
    · exact respond_ne_fault _ f
    · rename_i hlen
      simp only [Config.capacity] at hlen
      exact readThen_ne_fault (by simp only [Config.cyclicBase]; omega)
        (fun j hj => h _ ⟨by simp only [Config.capacity]; omega, Nat.le_add_right 5 j,
          by simp only [Config.cyclicBase]; omega⟩) fun _ => respond_ne_fault _ f
  | check len =>
    simp only [exec, execCheck, verify]
    split
    · exact respond_ne_fault _ f
    · rename_i hlen
      simp only [Config.capacity] at hlen
      have hw (k : Nat) (hk : k < len.toNat) : s.fb.written k = true :=
        h k ⟨by omega, by simp only [Config.capacity]; omega, hk⟩
      exact readThen_ne_fault (by omega) (fun j hj => hw _ (by omega)) fun _ =>
        readWordThen_ne_fault (by omega) (hw _ (by omega)) fun _ => respond_ne_fault _ f
  | wrw idx data => simp only [exec, execWrw_eq]; exact nofun
  | hdrRead | hdrWrite | hdrAck | hdrReadError | hdrWriteError | hdrIdle => exact receiveHeader_ne_fault _ f

/-- A well-formed operation whose words are written completes (R191, R201). -/
theorem exec_completes (hwf : i.wellFormed = true) (h : ∀ k, Reads i k → s.fb.written k = true) :
    ∃ t, exec i s = .next t := by
  cases hx : exec i s with
  | next t => exact ⟨t, rfl⟩
  | fault f => exact absurd hx (exec_ne_fault h f)
  | refused r => exact absurd hx (exec_ne_refused hwf)

/-- The written words after an operation: those before, and those it writes (R201). -/
theorem written_exec_iff (ht : exec i s = .next t) :
    t.fb.written k = true ↔ s.fb.written k = true ∨ Writes i k := by
  obtain ⟨b, ws, r, hs, -, rfl⟩ := exec_next ht
  rw [hs.writes k]
  simp only [Memory.written, Memory.read_writeList]
  split
  next hin =>
    have hlt : k - b < ws.length := by omega
    simp [List.getElem?_eq_getElem hlt, hin]
  next hout => simp [hout]

/-- A word that MemRead answers is written (R201). -/
theorem written_of_memRead {fb : Memory} {b n : Nat} {ws : List Word} (h : memRead fb b n = .ok ws) (hb : b ≤ k)
    (hk : k < b + n) : fb.written k = true := by
  obtain ⟨-, hl, hread⟩ := (memRead_ok_iff ..).1 h
  have hw := hread (k - b) (by omega)
  rw [Nat.add_sub_cancel' hb, List.getElem?_eq_getElem (by omega)] at hw
  exact Option.isSome_iff_exists.2 ⟨_, hw⟩

/-- An operation that completes has read only written words (R201). -/
theorem written_of_reads (ht : exec i s = .next t) (hk : Reads i k) : s.fb.written k = true := by
  have hword {b : Nat} {w : Word} (hr : s.fb.read b = some w) : s.fb.written b = true :=
    Option.isSome_iff_exists.2 ⟨w, hr⟩
  cases i with
  | construct | wrw | hdrRead | hdrWrite | hdrAck | hdrReadError | hdrWriteError | hdrIdle => exact hk.elim
  | getaddr => obtain ⟨w, hr, -⟩ := execGetaddr_next ht; exact hk ▸ hword hr
  | getcmd => obtain ⟨w, hr, -⟩ := execGetcmd_next ht; exact hk ▸ hword hr
  | getseg => obtain ⟨w, hr, -⟩ := execGetseg_next ht; exact hk ▸ hword hr
  | rdw idx => obtain ⟨w, hr, -⟩ := execRdw_next ht; exact hk ▸ hword hr
  | getcfg =>
    obtain ⟨hmin, hmax⟩ := hk
    obtain ⟨ws, hr, -⟩ := execGetcfg_next ht
    exact written_of_memRead hr hmin (by omega)
  | getcyc len haschk =>
    obtain ⟨hcap, hmin, hmax⟩ := hk
    obtain ⟨hbad, -⟩ | ⟨-, -, ws, hr, -⟩ := execGetcyc_next ht
    · simp only [Config.capacity] at hcap; omega
    · exact written_of_memRead hr hmin (by omega)
  | check len =>
    obtain ⟨h6, hcap, hmax⟩ := hk
    obtain ⟨hbad, -⟩ | ⟨-, -, ws, w, hr, hlast, -⟩ := verify_next ht
    · simp only [Config.capacity] at hcap; omega
    · by_cases hk : k = len.toNat - 1
      · exact hk ▸ hword hlast
      · exact written_of_memRead hr (Nat.zero_le k) (by omega)

/-- What reads FB is well-formed: only CONSTRUCT has operands that can be ill-formed, and it reads nothing. -/
theorem wellFormed_of_reads (hk : Reads i k) : i.wellFormed = true := by
  cases i with
  | construct => exact hk.elim
  | _ => rfl

end

/-- Settles O45: an operation whose words are written is no fault, and one with an unwritten word neither completes
nor is refused. -/
theorem faultsAreUnwrittenReads : Obligations.FaultsAreUnwrittenReads := by
  refine ⟨fun _ => rfl, fun i s => ⟨⟨?unwritten, ?fault⟩, fun t k => written_exec_iff⟩⟩
  case unwritten =>
    rintro ⟨f, hf⟩
    by_contra hnone
    refine exec_ne_fault (fun k hk => ?_) f hf
    exact Option.isSome_iff_ne_none.2 fun hr => hnone ⟨k, hk, hr⟩
  case fault =>
    rintro ⟨k, hk, hr⟩
    cases hx : exec i s with
    | next t => exact absurd hr (Option.isSome_iff_ne_none.1 (written_of_reads hx hk))
    | fault f => exact ⟨f, rfl⟩
    | refused r => exact absurd hx (exec_ne_refused (wellFormed_of_reads hk))

/-- Settles O37: FB[0] is the word written, and each decoder answers its field. -/
theorem decodersSeeTheWordJustWritten : Obligations.DecodersSeeTheWordJustWritten := by
  intro s t h ht
  have hread : t.fb.read 0 = some h := by
    cases (execWrw_eq 0 h s).symm.trans ht
    exact Memory.read_write_same s.fb 0 h
  exact ⟨execGetaddr_of_read hread, execGetseg_of_read hread, _, execGetcmd_of_read hread, rfl⟩

/-- Settles O56. -/
theorem resetLeavesEveryWordUnwritten : Obligations.ResetLeavesEveryWordUnwritten :=
  ⟨fun _ => rfl, fun _ _ hp => step_reset hp⟩

end Sys2Proof.Machine
end

section
/-! The host's obligations (spec/70_reset_and_hazards.md R202 to R208). A host that keeps them reads only words of the
frame it knows of, so each of its operations completes, and the frame it then knows of stands in FB. -/

namespace Sys2Proof.Machine

/-- The frame the host knows of, where it knows of one, is one that R52 allows and stands in FB (R32, R202). -/
def KnownFrameStands (v : Option HostView) (fb : Memory) : Prop :=
  ∀ f, v = some f → f.Legal ∧ FramePlaced fb f.size

section
variable {v : Option HostView} {i : Instr} {s t : State}

/-- A lawful operation reads only words of the frame the host knows of (R202, R204, R205, R207). -/
theorem lt_size_of_lawful (hv : ∀ f, v = some f → f.Legal) (hlaw : Lawful v i) {k : Nat} (hk : Reads i k) :
    ∃ f, v = some f ∧ k < f.size := by
  have ofHeader (hsome : v.isSome = true) (hk : k < 5) : ∃ f, v = some f ∧ k < f.size := by
    obtain ⟨f, hf⟩ := Option.isSome_iff_exists.1 hsome
    obtain ⟨hmin, -⟩ := hv f hf
    exact ⟨f, hf, by omega⟩
  cases i with
  | construct | wrw | hdrRead | hdrWrite | hdrAck | hdrReadError | hdrWriteError | hdrIdle => exact hk.elim
  | getaddr | getcmd | getseg => cases hk; exact ofHeader hlaw (by decide)
  | getcfg => exact ofHeader hlaw (Nat.lt_succ_of_le hk.2)
  | getcyc len haschk =>
    obtain ⟨f, hf, hlen, -⟩ := hlaw
    obtain ⟨-, -, hmax⟩ := hk
    exact ⟨f, hf, by omega⟩
  | check len =>
    obtain ⟨f, hf, -, hlen⟩ := hlaw
    obtain ⟨-, -, hmax⟩ := hk
    exact ⟨f, hf, hlen ▸ hmax⟩
  | rdw idx =>
    obtain ⟨f, hf, hidx⟩ := hlaw
    cases hk
    exact ⟨f, hf, hidx⟩

/-- With the known frame in FB a lawful operation completes. -/
theorem exec_completes_of_lawful (hstands : KnownFrameStands v s.fb) (hwf : i.wellFormed = true)
    (hlaw : Lawful v i) : ∃ t, exec i s = .next t := by
  refine exec_completes hwf fun k hk => ?_
  obtain ⟨f, hf, hlt⟩ := lt_size_of_lawful (fun f hf => (hstands f hf).1) hlaw hk
  exact (hstands f hf).2 k hlt

/-- CONSTRUCT gives a view only with an OK answer, of the size answered (R106, R206). -/
theorem viewOfConstruct_eq_some {chk : Bit} {r : Option Response} {f : HostView}
    (h : viewOfConstruct chk r = some f) :
    ∃ q z, r = some q ∧ q.status = .ok ∧ q.size = some z ∧ f = ⟨z.toNat, chk⟩ := by
  unfold viewOfConstruct at h
  split at h
  · cases h; exact ⟨_, _, rfl, rfl, rfl, rfl⟩
  · cases h

/-- The frame CONSTRUCT answers with OK is the one it wrote (R104, R106). -/
theorem knownFrameStands_of_construct {addr : BitVec 12} {cmd : BitVec 8} {seg : Bit} {cfg : Vector Word 4}
    {n : BitVec 8} {cyc : List Word} {chk : Bit} (ht : exec (.construct addr cmd seg cfg n cyc chk) s = .next t) :
    KnownFrameStands (viewOfConstruct chk t.resp) t.fb := by
  intro f hf
  obtain ⟨q, z, hq, hok, hz, rfl⟩ := viewOfConstruct_eq_some hf
  obtain ⟨hc, hfits, -, hsize, -⟩ := construct_ok_frame ht hq hok
  have hzsize : z.toNat = frameSize n chk := by
    rw [Option.some.inj (hz.symm.trans hsize)]
    exact Nat.mod_eq_of_lt (Nat.lt_of_le_of_lt hfits (by decide))
  refine ⟨⟨?_, hzsize ▸ hfits⟩, fun k hk => ?_⟩
  · simp only [hzsize, frameSize, Config.headerWords, Config.configWords]; omega
  · exact (written_exec_iff ht).2 (.inr ⟨hc, hfits, hzsize ▸ hk⟩)

/-- After an operation that completes, the frame the host then knows of stands in FB (R206, R208): a frame just built
does, one it knew of still does, since written words stay written, and a changed word leaves it none. -/
theorem knownFrameStands_exec (hstands : KnownFrameStands v s.fb) (ht : exec i s = .next t) :
    KnownFrameStands (viewAfter v i t) t.fb := by
  have hkept : KnownFrameStands v t.fb := fun f hf =>
    ⟨(hstands f hf).1, fun k hk => (written_exec_iff ht).2 (.inl ((hstands f hf).2 k hk))⟩
  cases i with
  | construct => exact knownFrameStands_of_construct ht
  | getaddr | getcmd | getseg | getcfg | getcyc | check | rdw => exact hkept
  | wrw | hdrRead | hdrWrite | hdrAck | hdrReadError | hdrWriteError | hdrIdle => exact nofun

end

/-- Settles O60: the step executes the decoded instruction, which completes and keeps the known frame. -/
theorem lawfulStepsKeepTheKnownFrame : Obligations.LawfulStepsKeepTheKnownFrame := by
  intro v s host p rest i hstands hp ho hd hlaw
  rw [(stepPerformsTheDecodedInstruction s host p rest hp ho).2 i hd]
  have hclaimed : KnownFrameStands v ({ s with pending := rest, owner := some host } : State).fb := hstands
  obtain ⟨t, ht⟩ := exec_completes_of_lawful hclaimed (decode_wellFormed hd) hlaw
  exact ⟨t, ht, knownFrameStands_exec hclaimed ht⟩

/-- Settles O59, by induction on the actions: each keeps the known frame in FB. -/
theorem hostsKeepingTheirObligationsNeverFault : Obligations.HostsKeepingTheirObligationsNeverFault := by
  intro as
  induction as with
  | nil => exact fun _ s _ _ => ⟨s, rfl⟩
  | cons a as ih =>
    intro v s hstands hkeeps
    cases a with
    | received f =>
      obtain ⟨hlegal, hplaced, hrest⟩ := hkeeps
      exact ih (some f) s (fun _ hf => Option.some.inj hf ▸ ⟨hlegal, hplaced⟩) hrest
    | request i =>
      obtain ⟨hwf, hlaw, hrest⟩ := hkeeps
      obtain ⟨t, ht⟩ := exec_completes_of_lawful hstands hwf hlaw
      simpa only [runHost, ht] using ih _ t (knownFrameStands_exec hstands ht) (hrest t ht)

end Sys2Proof.Machine
end
